-- ==== Sys2Proof/Word.lean ====
section
/-! DEFINITION. The word types of the block's interface (00_scope R9 to R11). -/

namespace Sys2Proof

/-- A byte, 0x00 to 0xFF (R9). -/
abbrev Byte := BitVec 8

/-- A byte string: byte 0 is the first byte on the wire (R10). -/
abbrev Bytes := List Byte

/-- A 16-bit unsigned field. -/
abbrev Half := BitVec 16

/-- The 32-bit control word CTRL (30_encoding R50, R51). -/
abbrev Ctrl := BitVec 32

/-- The carrier of a signed operand field. The field itself is the low W_S or W_M bits (W at most
64, R8), read in two's complement (R11, R57). DESIGN CHOICE, log entry 5. -/
abbrev Scalar := BitVec 64

end Sys2Proof
end

