-- ==== Sys2Proof/Syntax.lean ====
section
/-! DEFINITION. The instructions, the request and its operand record, the status names and the
response (30_encoding R50 to R59, 60_exceptions R170). -/

namespace Sys2Proof

/-- The instructions of the opcode map (30_encoding R53), each with the CTRL fields R51 gives it. -/
inductive Instr where
  /-- ENC.CMD; `rev` is CTRL.REV. -/
  | encCmd (rev : Bool)
  /-- CHKSUM. -/
  | chksum
  /-- DEC.RESP. -/
  | decResp
  /-- RESP.ACK. -/
  | respAck
  /-- DEC.DATA. -/
  | decData
  /-- SWA.ADD; `ch` is CTRL.CH, the averager channel. -/
  | swaAdd (ch : BitVec 8)
  /-- MAP.STEP; `pres` is CTRL.PRES and `ch` CTRL.CH, the mapper channel. -/
  | mapStep (pres : Bool) (ch : BitVec 8)
  /-- LINMAP. -/
  | linMap
  deriving DecidableEq, Repr

/-- The opcode names of the opcode map (R53). -/
inductive Opcode where
  | encCmd | chksum | decResp | respAck | decData | swaAdd | mapStep | linMap
  deriving DecidableEq, Repr

/-- The operand fields OP of a request (R56). Each opcode reads only its own; any field may hold any
value of its type (R57). -/
structure Operands where
  /-- OP.W, the command word. -/
  w : Half
  /-- OP.A, the address. -/
  a : Byte
  /-- OP.R, the register. -/
  r : Byte
  /-- OP.B, a byte string of any length (R58). -/
  b : Bytes
  /-- OP.S, the sample: the low W_S bits. -/
  s : Scalar
  /-- OP.X, `rawInput` or the LINMAP input: the low W_M bits. -/
  x : Scalar
  /-- OP.L, LINMAP's `low`: the low W_M bits. -/
  l : Scalar
  /-- OP.H, LINMAP's `high`: the low W_M bits. -/
  h : Scalar
  /-- OP.BG, LINMAP's `begin`: the low W_M bits. -/
  bg : Scalar
  /-- OP.EN, LINMAP's `end`: the low W_M bits. -/
  en : Scalar
  deriving DecidableEq, Repr

/-- A request: the pair (CTRL, OP) (R50). -/
structure Request where
  ctrl : Ctrl
  op : Operands
  deriving DecidableEq, Repr

/-- The status names (60_exceptions R170). No other status occurs. -/
inductive Status where
  | ok | framing | anomaly | illegalOp | reserved | badChannel | length | range
  deriving DecidableEq, Repr

/-- A target record of RES.TGT (R59, 41_data_decoder R110). -/
structure Target where
  slot : Fin 3
  /-- Millimetres, in [-32767, 32767]. -/
  x : Int
  /-- Millimetres, in [-32767, 32767]. -/
  y : Int
  /-- Raw, undecoded (R67). -/
  speed : Half
  /-- Distance resolution, raw, undecoded (R67). -/
  res : Half
  deriving DecidableEq, Repr

/-- A response: STATUS and the result fields written (R12, R59). A field not given is `none`. -/
structure Response where
  status : Status
  /-- RES.BYTES (ENC.CMD, DEC.RESP). -/
  bytes : Option Bytes := none
  /-- RES.BYTE (CHKSUM). -/
  byte : Option Byte := none
  /-- RES.BIT: LENOK (DEC.RESP) or ACK (RESP.ACK). -/
  bit : Option Bool := none
  /-- RES.TGT (DEC.DATA). -/
  tgt : Option (List Target) := none
  /-- RES.VAL (SWA.ADD, MAP.STEP, LINMAP). -/
  val : Option Int := none
  deriving DecidableEq, Repr

/-- One action of the host (10_state R31, R34). -/
inductive Input where
  /-- The host offers a request and waits for its response. -/
  | request (r : Request)
  /-- The host asserts reset while no request is unfinished (70_reset R190). -/
  | reset
  /-- The host asserts reset while the request `r` is unfinished (70_reset R192). -/
  | resetDuring (r : Request)
  deriving DecidableEq, Repr

end Sys2Proof
end

