-- ==== Sys2Proof/Decode.lean ====
section
/-! DEFINITION. Decoding of the control word (30_encoding R52 to R55), total on every 32-bit word and
rejecting by status name, and the encoder, written from the opcode map (R53). -/

namespace Sys2Proof

/-- The opcode byte of the opcode map (R53). -/
def Opcode.code : Opcode → Byte
  | .encCmd => 0x01#8
  | .chksum => 0x02#8
  | .decResp => 0x03#8
  | .respAck => 0x04#8
  | .decData => 0x05#8
  | .swaAdd => 0x10#8
  | .mapStep => 0x20#8
  | .linMap => 0x21#8

/-- The opcode names, in the table's order. -/
def Opcode.all : List Opcode :=
  [.encCmd, .chksum, .decResp, .respAck, .decData, .swaAdd, .mapStep, .linMap]

/-- The opcode a byte selects, if it is assigned (R53, R55). -/
def Opcode.ofCode (b : Byte) : Option Opcode :=
  Opcode.all.find? fun o => o.code == b

/-- The CTRL bits besides OPC that the opcode leaves free (R52). -/
def Opcode.free : Opcode → Ctrl
  | .encCmd => 0x00010000#32
  | .chksum => 0#32
  | .decResp => 0#32
  | .respAck => 0#32
  | .decData => 0#32
  | .swaAdd => 0x0000FF00#32
  | .mapStep => 0x0002FF00#32
  | .linMap => 0#32

/-- CTRL[7:0], OPC (R51). -/
def ctrlOpc (c : Ctrl) : Byte := c.extractLsb' 0 8

/-- CTRL[15:8], CH (R51). -/
def ctrlCh (c : Ctrl) : BitVec 8 := c.extractLsb' 8 8

/-- CTRL[16], REV (R51). -/
def ctrlRev (c : Ctrl) : Bool := c.getLsbD 16

/-- CTRL[17], PRES (R51). -/
def ctrlPres (c : Ctrl) : Bool := c.getLsbD 17

/-- The instruction an opcode selects, with the CTRL fields R51 gives it. -/
def Opcode.instr (o : Opcode) (c : Ctrl) : Instr :=
  match o with
  | .encCmd => .encCmd (ctrlRev c)
  | .chksum => .chksum
  | .decResp => .decResp
  | .respAck => .respAck
  | .decData => .decData
  | .swaAdd => .swaAdd (ctrlCh c)
  | .mapStep => .mapStep (ctrlPres c) (ctrlCh c)
  | .linMap => .linMap

/-- `decode(CTRL)` of R52: ILLEGAL_OP for an unassigned opcode, RESERVED for a set bit that is neither
OPC nor free, else the instruction. -/
def decodeCtrl (c : Ctrl) : Except Status Instr :=
  match Opcode.ofCode (ctrlOpc c) with
  | none => .error .illegalOp
  | some o => if c &&& ~~~(o.free ||| 0x000000FF#32) = 0#32 then .ok (o.instr c) else .error .reserved

/-- The opcode of an instruction. -/
def Instr.opcode : Instr → Opcode
  | .encCmd _ => .encCmd
  | .chksum => .chksum
  | .decResp => .decResp
  | .respAck => .respAck
  | .decData => .decData
  | .swaAdd _ => .swaAdd
  | .mapStep _ _ => .mapStep
  | .linMap => .linMap

/-- A CTRL word from its fields; RSVD is 0 (R51). -/
def ctrlWord (opc : Byte) (ch : BitVec 8) (rev pres : Bool) : Ctrl :=
  opc.setWidth 32 ||| ch.setWidth 32 <<< 8 ||| (BitVec.ofBool rev).setWidth 32 <<< 16 |||
    (BitVec.ofBool pres).setWidth 32 <<< 17

/-- The control word of an instruction, a field the opcode does not use being 0 (R51, R53). -/
def encode : Instr → Ctrl
  | .encCmd rev => ctrlWord Opcode.encCmd.code 0#8 rev false
  | .chksum => ctrlWord Opcode.chksum.code 0#8 false false
  | .decResp => ctrlWord Opcode.decResp.code 0#8 false false
  | .respAck => ctrlWord Opcode.respAck.code 0#8 false false
  | .decData => ctrlWord Opcode.decData.code 0#8 false false
  | .swaAdd ch => ctrlWord Opcode.swaAdd.code ch false false
  | .mapStep pres ch => ctrlWord Opcode.mapStep.code ch false pres
  | .linMap => ctrlWord Opcode.linMap.code 0#8 false false

/-- The match word of an opcode's row (R53). -/
def Opcode.matchWord : Opcode → Ctrl
  | .encCmd => 0x00000001#32
  | .chksum => 0x00000002#32
  | .decResp => 0x00000003#32
  | .respAck => 0x00000004#32
  | .decData => 0x00000005#32
  | .swaAdd => 0x00000010#32
  | .mapStep => 0x00000020#32
  | .linMap => 0x00000021#32

/-- The mask word of an opcode's row (R53). -/
def Opcode.maskWord : Opcode → Ctrl
  | .encCmd => 0xFFFEFFFF#32
  | .chksum => 0xFFFFFFFF#32
  | .decResp => 0xFFFFFFFF#32
  | .respAck => 0xFFFFFFFF#32
  | .decData => 0xFFFFFFFF#32
  | .swaAdd => 0xFFFF00FF#32
  | .mapStep => 0xFFFD00FF#32
  | .linMap => 0xFFFFFFFF#32

/-- The instruction this decoder reads from the opcode table's bits `w`, of which `nbits` are given and
the rest are 0. CTRL is a 32-bit number, not a byte image (20_memory R43), so the bits are CTRL's own. -/
def decodeTableWord (nbits w : Nat) : Option Instr :=
  match decodeCtrl (BitVec.ofNat 32 (w % 2 ^ nbits)) with
  | .ok i => some i
  | .error _ => none

end Sys2Proof
end

