-- ==== Sys2Proof/Machine/Arith.lean ====
section
/-! DEFINITION. The integer functions of 00_scope R11, on exact integers. -/

namespace Sys2Proof.Machine

/-- `v` is a W-bit signed value: in [-2^(W-1), 2^(W-1)-1] (R11). -/
abbrev FitsSigned (w : Nat) (v : Int) : Prop :=
  -(2 ^ (w - 1)) ≤ v ∧ v ≤ 2 ^ (w - 1) - 1

/-- `sext_W`: the low `w` bits of the carrier, read as two's complement (R11). -/
def sext (w : Nat) (p : Scalar) : Int := (p.setWidth w).toInt

/-- `clamp(v, lo, hi)` (R11). -/
def clamp (v lo hi : Int) : Int :=
  if v < lo then lo else if hi < v then hi else v

/-- `floor_div(a, b)` for b > 0: the largest integer q with q*b <= a (R11). -/
def floorDiv (a b : Int) : Int := a / b

/-- `TDIV(a, b)` for b > 0: the quotient truncated toward zero (R11). -/
def tdiv (a b : Int) : Int :=
  if 0 ≤ a then floorDiv a b else -floorDiv (-a) b

/-- `RNE(a, b)` for b > 0: a/b rounded to the nearest integer, ties to even (R11). -/
def rne (a b : Int) : Int :=
  let f := floorDiv a b
  let r := a - f * b
  if 2 * r < b then f
  else if 2 * r > b then f + 1
  else if f % 2 = 0 then f else f + 1

end Sys2Proof.Machine
end

