-- ==== Sys2Proof/Config.lean ====
section
/-! DEFINITION. The implementation parameters (00_scope R7), which are the block's read-only control
registers (10_state R24). A claim quantifies over them; `Config.reference` is one legal choice. -/

namespace Sys2Proof

/-- The configuration of one averager channel (R24). -/
structure SwaConfig where
  /-- SWA_N[c], the window capacity. -/
  n : Nat
  /-- SWA_P[c], the decimal precision of the average. -/
  p : Nat
  deriving DecidableEq, Repr

/-- The configuration of one mapper channel (R24), each value W_M-bit signed (R8). -/
structure MapConfig where
  inMin : Int
  inMax : Int
  outMin : Int
  outMax : Int
  /-- MAP_DELTA[m], the per-step change limit. -/
  delta : Int
  /-- MAP_REST[m], the target output used when no human is present. -/
  rest : Int
  /-- MAP_INIT[m], the output after reset. -/
  init : Int
  deriving DecidableEq, Repr

/-- The parameters of R7 that a rule reads. -/
structure Config where
  /-- BUF_MAX, the longest byte-string operand or result. -/
  bufMax : Nat
  /-- OSIGN_HIGH_POS, the polarity of the offset-sign decode (30_encoding R68). -/
  osignHighPos : Bool
  /-- W_S, the width of an averager sample. -/
  wS : Nat
  /-- W_M, the width of a mapper or LINMAP value. -/
  wM : Nat
  /-- The averager channels. -/
  swa : List SwaConfig
  /-- The mapper channels. -/
  map : List MapConfig
  deriving DecidableEq, Repr

/-- NSWA, the number of averager channels. -/
def Config.nswa (c : Config) : Nat := c.swa.length

/-- NMAP, the number of mapper channels. -/
def Config.nmap (c : Config) : Nat := c.map.length

/-- The mapper channel of the reference configuration (95_test_vectors, log entry 1). -/
def MapConfig.reference : MapConfig :=
  { inMin := 0, inMax := 1000, outMin := 0, outMax := 100, delta := 30, rest := 0, init := 0 }

/-- DESIGN CHOICE (log entries 1 and 2). The configuration `State.reset` holds: the spec's defaults
(W_S, NSWA, W_M), for the OPEN parameters the values 95_test_vectors uses, and OSIGN_HIGH_POS = 1
(PRESUMED, 93 G1). -/
def Config.reference : Config :=
  { bufMax := 64
    osignHighPos := true
    wS := 16
    wM := 32
    swa := List.replicate 6 { n := 4, p := 0 }
    map := List.replicate 2 MapConfig.reference }

end Sys2Proof
end

