-- ==== Sys2Proof/Machine/State.lean ====
section
/-! DEFINITION. The state (10_state R20 to R34), the reasons a step can stop, and the state after
reset (R32). Everything is plain data. -/

namespace Sys2Proof.Machine

/-- The state of one averager channel (R25 to R27). -/
structure SwaChannel where
  /-- S.BUF[c], oldest write not first: entry i is S.BUF[c][i]. -/
  buf : List Int
  /-- S.CUR[c], the entry the next SWA.ADD evicts and overwrites. -/
  cur : Nat
  /-- S.SUM[c], the running sum, exact. -/
  sum : Int
  deriving DecidableEq, Repr

/-- The block with its configuration and its interface. -/
structure State where
  /-- The configuration fields, the read-only control registers (R24). -/
  cfg : Config
  /-- S.LIVE (R30). -/
  live : Bool
  /-- S.BUF, S.CUR and S.SUM of every averager channel; empty while S.LIVE = 0 (R30). DEDUCED, log
  entry 9. -/
  swa : List SwaChannel
  /-- S.OUT[m] of every mapper channel; empty while S.LIVE = 0 (R29, R30). -/
  out : List Int
  /-- The operand fields of the request on the request port (R31, 30_encoding R56). -/
  op : Operands
  /-- What the host does next, oldest first (R31, R34). The model's own field, log entry 3. -/
  inputs : List Input
  /-- The responses returned so far, oldest first (R31). The model's own field, log entry 3. -/
  responses : List Response
  deriving DecidableEq, Repr

/-- The reasons a step can stop. -/
inductive Fault where
  /-- A request is offered while S.LIVE = 0: it gets no response and has no effect, and the block is
  stuck until a reset (70_reset R191). Raised by every instruction. Safe. DESIGN CHOICE, log entry 7. -/
  | stuckBeforeReset
  /-- SWA.ADD or MAP.STEP finds no state for a channel the configuration has. No state that a reset
  leads to is such a state (the invariant of Safety.lean). Safe. DESIGN CHOICE, log entry 7. -/
  | channelWithoutState
  deriving DecidableEq, Repr

/-- The reasons a step is refused. -/
inductive Refusal where
  /-- An instruction that has no meaning in the model yet. Raised by no arm of `exec`. Safe. -/
  | notModelled (mnemonic : String)
  /-- The configuration is illegal: it is refused at instantiation, and no request is performed
  under it (00_scope R8). Raised by every instruction and every step. Safe. DEDUCED, log entry 10. -/
  | illegalConfiguration
  deriving DecidableEq, Repr

/-- The operand fields before the first request. DESIGN CHOICE (log entry 4): zero and the empty
string. No request reads them, since each request brings its own. -/
def noOperands : Operands :=
  { w := 0, a := 0, r := 0, b := [], s := 0, x := 0, l := 0, h := 0, bg := 0, en := 0 }

/-- The averager channel after reset (R32). -/
def SwaChannel.afterReset (k : SwaConfig) : SwaChannel :=
  { buf := List.replicate k.n 0, cur := 0, sum := 0 }

/-- The block after power-up with the configuration `c`, before the first reset: S.LIVE = 0 and no
other state field holds a value (R30, 70_reset R191). -/
def State.powerUp (c : Config) : State :=
  { cfg := c, live := false, swa := [], out := [], op := noOperands, inputs := [], responses := [] }

/-- The block right after its first reset with the configuration `c` (R32). -/
def State.afterReset (c : Config) : State :=
  { State.powerUp c with
    live := true, swa := c.swa.map SwaChannel.afterReset, out := c.map.map MapConfig.init }

/-- The machine right after reset (R32), with the reference configuration (log entries 1 and 2). -/
def State.reset : State := State.afterReset Config.reference

end Sys2Proof.Machine
end

