-- ==== Sys2Proof/Machine/Operands.lean ====
section
/-! DEFINITION. Reading the operand fields (30_encoding R56 to R58). W, A, R and B are read as they
stand; a signed field is read with `sext` at its width (R57). -/

namespace Sys2Proof.Machine

/-- OP.S, the sample, W_S-bit signed. -/
def State.opS (s : State) : Int := sext s.cfg.wS s.op.s

/-- OP.X, W_M-bit signed. -/
def State.opX (s : State) : Int := sext s.cfg.wM s.op.x

/-- OP.L, W_M-bit signed. -/
def State.opL (s : State) : Int := sext s.cfg.wM s.op.l

/-- OP.H, W_M-bit signed. -/
def State.opH (s : State) : Int := sext s.cfg.wM s.op.h

/-- OP.BG, W_M-bit signed. -/
def State.opBG (s : State) : Int := sext s.cfg.wM s.op.bg

/-- OP.EN, W_M-bit signed. -/
def State.opEN (s : State) : Int := sext s.cfg.wM s.op.en

/-- OP.B is longer than BUF_MAX (R58). -/
abbrev State.TooLong (s : State) : Prop := s.cfg.bufMax < s.op.b.length

end Sys2Proof.Machine
end

