-- ==== Sys2Proof/Machine/Configuration.lean ====
section
/-! DEFINITION. The legal configurations (00_scope R8). -/

namespace Sys2Proof

/-- The conditions of R8 on an averager channel; SWA_P is a natural number, so at least 0. -/
abbrev SwaConfig.Legal (k : SwaConfig) : Prop := 1 ≤ k.n

/-- Every value of the mapper channel is representable in W_M-bit two's complement (R8). -/
abbrev MapConfig.Representable (w : Nat) (k : MapConfig) : Prop :=
  Machine.FitsSigned w k.inMin ∧ Machine.FitsSigned w k.inMax ∧ Machine.FitsSigned w k.outMin ∧
  Machine.FitsSigned w k.outMax ∧ Machine.FitsSigned w k.delta ∧ Machine.FitsSigned w k.rest ∧
  Machine.FitsSigned w k.init

/-- The conditions of R8 on a mapper channel. -/
abbrev MapConfig.Legal (w : Nat) (k : MapConfig) : Prop :=
  k.Representable w ∧ k.inMin < k.inMax ∧ k.outMin ≤ k.outMax ∧
  (k.outMin ≤ k.rest ∧ k.rest ≤ k.outMax) ∧ (k.outMin ≤ k.init ∧ k.init ≤ k.outMax) ∧ 0 ≤ k.delta

/-- The legal configurations (R8). -/
abbrev Config.Legal (c : Config) : Prop :=
  30 ≤ c.bufMax ∧ (2 ≤ c.wS ∧ c.wS ≤ 64) ∧ (2 ≤ c.wM ∧ c.wM ≤ 64) ∧
  (1 ≤ c.nswa ∧ c.nswa ≤ 256) ∧ (1 ≤ c.nmap ∧ c.nmap ≤ 256) ∧
  (∀ k ∈ c.swa, k.Legal) ∧ (∀ k ∈ c.map, k.Legal c.wM)

end Sys2Proof
end

