-- ==== Sys2Proof/Machine/Ops.lean ====
section
/-! DEFINITION. The shared operations: instantiating, resetting, accepting and ending a request, and
the reads and writes of channel state. The block has no traps (60_exceptions R177): ending a request
with a status other than OK (`State.raise`) is all an error does. -/

namespace Sys2Proof

/-- The 8-bit status codes (R170). -/
def Status.code : Status → Byte
  | .ok => 0x00#8
  | .framing => 0x01#8
  | .anomaly => 0x02#8
  | .illegalOp => 0x10#8
  | .reserved => 0x11#8
  | .badChannel => 0x12#8
  | .length => 0x13#8
  | .range => 0x14#8

end Sys2Proof

namespace Sys2Proof.Machine

/-- The three outcomes of a step of this machine. -/
abbrev Result := Host.Outcome State Fault Refusal

/-- Instantiation (70_reset R193 step 1): an illegal configuration is refused (00_scope R8). -/
def instantiate (c : Config) : Result :=
  if c.Legal then .next (State.powerUp c) else .refused .illegalConfiguration

/-- Reset (70_reset R190): writes every state field with its value in 10_state R32, changes no
configuration field and produces no response. The operand fields of the port stay as they are (DESIGN
CHOICE, log entry 4). -/
def State.applyReset (s : State) : State :=
  { s with
    live := true
    swa := s.cfg.swa.map SwaChannel.afterReset
    out := s.cfg.map.map MapConfig.init }

/-- The block performs a request only under a legal configuration (00_scope R8) and only while
S.LIVE = 1 (70_reset R191). -/
def State.perform (s : State) (body : Result) : Result :=
  if s.cfg.Legal then
    if s.live then body else .fault .stuckBeforeReset
  else .refused .illegalConfiguration

/-- The request ends with the response `r` (R12, R59). -/
def State.reply (s : State) (r : Response) : State :=
  { s with responses := s.responses ++ [r] }

/-- `raise st` (00_scope R12): the request ends with the status `st`, no state field is written and no
result field is given (60_exceptions R171). -/
def State.raise (s : State) (st : Status) : Result := .next (s.reply { status := st })

/-- `return` (00_scope R12): the request ends with the response `r`. -/
def State.finish (s : State) (r : Response) : Result := .next (s.reply r)

/-- The block accepts the request `r`, the inputs `rest` being still to come (10_state R31). -/
def State.accept (s : State) (r : Request) (rest : List Input) : State :=
  { s with op := r.op, inputs := rest }

/-- Writes S.BUF[c], S.CUR[c] and S.SUM[c]. -/
def State.setSwa (s : State) (c : Nat) (ch : SwaChannel) : State :=
  { s with swa := s.swa.set c ch }

/-- Writes S.OUT[m]. -/
def State.setOut (s : State) (m : Nat) (v : Int) : State :=
  { s with out := s.out.set m v }

end Sys2Proof.Machine
end

