-- ==== Sys2Proof/Machine/Averager.lean ====
section
/-! DEFINITION. The sliding-window averager instruction SWA.ADD (42_window_averager R130 to R133). -/

namespace Sys2Proof.Machine

/-- Evict, write, advance and add (R130), where the entry evicted holds `old`. -/
def SwaChannel.add (k : SwaConfig) (ch : SwaChannel) (old v : Int) : SwaChannel :=
  { buf := ch.buf.set ch.cur v
    cur := (ch.cur + 1) % k.n
    sum := ch.sum - old + v }

/-- `round(sum/capacity, precision)`, scaled by 10^P (R130). -/
def windowAverage (k : SwaConfig) (sum : Int) : Int := rne (sum * 10 ^ k.p) k.n

/-- SWA.ADD (R130). -/
def execSwaAdd (ch : BitVec 8) (s : State) : Result :=
  s.perform <|
    match s.cfg.swa[ch.toNat]? with
    | none => s.raise .badChannel
    | some k =>
      match s.swa[ch.toNat]? with
      | none => .fault .channelWithoutState
      | some c =>
        match c.buf[c.cur]? with
        | none => .fault .channelWithoutState
        | some old =>
          let c' := c.add k old s.opS
          (s.setSwa ch.toNat c').finish { status := .ok, val := some (windowAverage k c'.sum) }

end Sys2Proof.Machine
end

