-- ==== Sys2Proof/Machine/Bytes.lean ====
section
/-! DEFINITION. Byte strings and the wire constants (00_scope R10, 30_encoding R60). -/

namespace Sys2Proof.Machine

/-- CMD_HDR (R60). -/
def cmdHdr : Bytes := [0xFD#8, 0xFC#8, 0xFB#8, 0xFA#8]

/-- CMD_FTR (R60). -/
def cmdFtr : Bytes := [0x04#8, 0x03#8, 0x02#8, 0x01#8]

/-- DATA_HDR (R60). -/
def dataHdr : Bytes := [0xAA#8, 0xFF#8, 0x03#8, 0x00#8]

/-- DATA_FTR (R60). No request compares it (41_data_decoder R110). -/
def dataFtr : Bytes := [0x55#8, 0xCC#8]

/-- `B[i]` (R10). The rules read only indices below the length. -/
def byteAt (b : Bytes) (i : Nat) : Byte := b.getD i 0#8

/-- `B[i..j)`, empty when j <= i (R10). -/
def slice (b : Bytes) (i j : Nat) : Bytes := (b.drop i).take (j - i)

/-- `LE16(b0, b1) = b0 + 256*b1` (R10). -/
def le16Value (b0 b1 : Byte) : Half := BitVec.ofNat 16 (b0.toNat + 256 * b1.toNat)

/-- `LE16(B[i], B[i + 1])`. -/
def le16At (b : Bytes) (i : Nat) : Half := le16Value (byteAt b i) (byteAt b (i + 1))

/-- `le16(v) = [v[7:0], v[15:8]]` for v below 65536 (R10). -/
def le16 (v : Nat) : Bytes := [BitVec.ofNat 8 v, BitVec.ofNat 8 (v / 256)]

/-- `find_last(P, B)`: the largest i with `B[i..i+len(P)) = P`, if any (R10). -/
def findLast (p : Bytes) : Bytes → Option Nat
  | [] => if p.isPrefixOf [] then some 0 else none
  | b :: bs =>
    match findLast p bs with
    | some i => some (i + 1)
    | none => if p.isPrefixOf (b :: bs) then some 0 else none

end Sys2Proof.Machine
end

