-- ==== Sys2Proof/Machine/Flags.lean ====
section
/-! DEFINITION. The per-response flags LENOK and ACK (10_state R23) and the response payload's fields
they are computed from (30_encoding R65). None of them persists. -/

namespace Sys2Proof.Machine

/-- Payload bytes [0:2): the number of payload bytes after it (R65). -/
def payloadLength (p : Bytes) : Half := le16At p 0

/-- Payload bytes [2:4): the command word, byte-reversed (R65, 40_command_codec R84). -/
def payloadWord (p : Bytes) : Half := le16At p 2

/-- Payload bytes [4:6): the acknowledgement field (R65). -/
def payloadAck (p : Bytes) : Half := le16At p 4

/-- LENOK (40_command_codec R82). -/
def lenOk (p : Bytes) : Bool :=
  decide (2 ≤ p.length ∧ (payloadLength p).toNat = p.length - 2)

/-- ACK (40_command_codec R83); 0 on a payload shorter than 6 bytes. -/
def ackBit (f : Bytes) : Bool :=
  decide (6 ≤ f.length ∧ payloadAck f = 0#16)

end Sys2Proof.Machine
end

