-- ==== Sys2Proof/Machine/Codec.lean ====
section
/-! DEFINITION. The command codec instructions: ENC.CMD, CHKSUM, DEC.RESP, RESP.ACK
(40_command_codec R80 to R83). None reads or writes a state field. -/

namespace Sys2Proof.Machine

/-- The command frame (30_encoding R61 to R63). -/
def commandFrame (rev : Bool) (w : Half) (v : Bytes) : Bytes :=
  cmdHdr ++ le16 (2 + v.length) ++ le16 w.toNat ++ (if rev then v.reverse else v) ++ cmdFtr

/-- ENC.CMD (R80). -/
def execEncCmd (rev : Bool) (s : State) : Result :=
  s.perform <|
    if 65533 < s.op.b.length ∨ s.cfg.bufMax < 12 + s.op.b.length then s.raise .length
    else s.finish { status := .ok, bytes := some (commandFrame rev s.op.w s.op.b) }

/-- The XOR-fold checksum (R81): the seed is ((2 * A) mod 256) XOR R. -/
def checksum (a r : Byte) (m : Bytes) : Byte :=
  m.foldl (fun c b => c ^^^ b) (BitVec.ofNat 8 (2 * a.toNat % 256) ^^^ r)

/-- CHKSUM (R81). -/
def execChksum (s : State) : Result :=
  s.perform <|
    if s.TooLong then s.raise .length
    else s.finish { status := .ok, byte := some (checksum s.op.a s.op.r s.op.b) }

/-- DEC.RESP (R82): the last 4 bytes are removed without being compared with CMD_FTR. -/
def execDecResp (s : State) : Result :=
  s.perform <|
    if s.TooLong then s.raise .length
    else
      match findLast cmdHdr s.op.b with
      | none => s.raise .framing
      | some h =>
        let p := slice s.op.b (h + 4) (s.op.b.length - 4)
        s.finish { status := .ok, bytes := some p, bit := some (lenOk p) }

/-- RESP.ACK (R83). -/
def execRespAck (s : State) : Result :=
  s.perform <|
    if s.TooLong then s.raise .length
    else s.finish { status := .ok, bit := some (ackBit s.op.b) }

end Sys2Proof.Machine
end

