-- ==== Sys2Proof/Machine/DataFrame.lean ====
section
/-! DEFINITION. The data-frame decoder instruction DEC.DATA (41_data_decoder R110 to R112). -/

namespace Sys2Proof

/-- The no-target rule (R111): both decoded coordinates are zero. -/
def Target.absent (t : Target) : Bool := decide (t.x = 0 ∧ t.y = 0)

end Sys2Proof

namespace Sys2Proof.Machine

/-- `OSIGN(raw)` (30_encoding R68): magnitude in the low 15 bits, sign given by bit 15 under the
polarity OSIGN_HIGH_POS. -/
def osign (highPos : Bool) (raw : Half) : Int :=
  let mag : Int := ((raw.toNat % 2 ^ 15 : Nat) : Int)
  let high := raw.getLsbD 15
  let negative := if highPos then !high else high
  if negative then -mag else mag

/-- The target record of slot `k` of a chunk whose last 30 bytes are the frame (30_encoding R66, R67). -/
def decodeSlot (highPos : Bool) (r : Bytes) (k : Fin 3) : Target :=
  let b := r.length - 26 + 8 * k.val
  { slot := k
    x := osign highPos (le16At r b)
    y := osign highPos (le16At r (b + 2))
    speed := le16At r (b + 4)
    res := le16At r (b + 6) }

/-- The kept slots in slot order (R110). -/
def decodeTargets (highPos : Bool) (r : Bytes) : List Target :=
  (([0, 1, 2] : List (Fin 3)).map (decodeSlot highPos r)).filter fun t => !t.absent

/-- DEC.DATA (R110): the footer bytes and the bytes before the last 30 are not checked. -/
def execDecData (s : State) : Result :=
  s.perform <|
    if s.TooLong then s.raise .length
    else if s.op.b.length < 30 then s.raise .anomaly
    else if slice s.op.b (s.op.b.length - 30) (s.op.b.length - 26) ≠ dataHdr then s.raise .anomaly
    else s.finish { status := .ok, tgt := some (decodeTargets s.cfg.osignHighPos s.op.b) }

end Sys2Proof.Machine
end

