-- ==== Sys2Proof/Machine/Mapper.lean ====
section
/-! DEFINITION. The rate-limited mapper instructions LINMAP and MAP.STEP (43_mapper R150 to R154). -/

namespace Sys2Proof.Machine

/-- `LM(x, low, high, begin, end)` for low <= high (R150). -/
def linearMap (x low high bg en : Int) : Int :=
  if low = high then bg
  else bg + tdiv ((clamp x low high - low) * (en - bg)) (high - low)

/-- LINMAP (R151). -/
def execLinMap (s : State) : Result :=
  s.perform <|
    if s.opH < s.opL then s.raise .range
    else s.finish { status := .ok, val := some (linearMap s.opX s.opL s.opH s.opBG s.opEN) }

/-- The target output of a mapper channel (R152): the inverted map of the clamped input when a human
is present, else the rest value, the input not being read. -/
def mapTarget (k : MapConfig) (pres : Bool) (x : Int) : Int :=
  if pres then linearMap (clamp x k.inMin k.inMax) k.inMin k.inMax k.outMax k.outMin else k.rest

/-- The delta clamp (R152): the output moves from `o` toward `t` by at most `d`. -/
def deltaStep (d t o : Int) : Int := o + clamp (t - o) (-d) d

/-- MAP.STEP (R152). -/
def execMapStep (pres : Bool) (ch : BitVec 8) (s : State) : Result :=
  s.perform <|
    match s.cfg.map[ch.toNat]? with
    | none => s.raise .badChannel
    | some k =>
      match s.out[ch.toNat]? with
      | none => .fault .channelWithoutState
      | some o =>
        let o2 := deltaStep k.delta (mapTarget k pres s.opX) o
        (s.setOut ch.toNat o2).finish { status := .ok, val := some o2 }

end Sys2Proof.Machine
end

