-- ==== Sys2Proof/Machine/Dispatch.lean ====
section
/-! DEFINITION. One arm per instruction. -/

namespace Sys2Proof.Machine

def exec (i : Instr) (s : State) : Host.Outcome State Fault Refusal :=
  match i with
  | .encCmd rev => Sys2Proof.Machine.execEncCmd rev s
  | .chksum => Sys2Proof.Machine.execChksum s
  | .decResp => Sys2Proof.Machine.execDecResp s
  | .respAck => Sys2Proof.Machine.execRespAck s
  | .decData => Sys2Proof.Machine.execDecData s
  | .swaAdd ch => Sys2Proof.Machine.execSwaAdd ch s
  | .mapStep pres ch => Sys2Proof.Machine.execMapStep pres ch s
  | .linMap => Sys2Proof.Machine.execLinMap s

end Sys2Proof.Machine
end

