-- ==== Sys2Proof/Machine/Request.lean ====
section
/-! DEFINITION. Performing one host action: a request decoded and executed (30_encoding R52), or a
reset (70_reset R190, R192). -/

namespace Sys2Proof.Machine

/-- The request with the control word `ctrl`, whose operand fields are `s.op`: decoded, then performed;
a decode error is its status (R52). -/
def runCtrl (ctrl : Ctrl) (s : State) : Result :=
  match decodeCtrl ctrl with
  | .ok i => exec i s
  | .error st => s.perform (s.raise st)

/-- One action of the host. A reset during a request abandons it: it writes no state field, no response
is returned for it, then the reset applies (R192). -/
def runInput (a : Input) (rest : List Input) (s : State) : Result :=
  match a with
  | .request r => runCtrl r.ctrl (s.accept r rest)
  | .reset => .next { s with inputs := rest }.applyReset
  | .resetDuring _ => .next { s with inputs := rest }.applyReset

/-- The next host action, or none: between requests the block holds its state unchanged (60_exceptions
R182; DESIGN CHOICE, log entry 3). Nothing runs under an illegal configuration (00_scope R8; DEDUCED, log
entry 10). -/
def runNext (s : State) : Result :=
  if s.cfg.Legal then
    match s.inputs with
    | [] => .next s
    | a :: rest => runInput a rest s
  else .refused .illegalConfiguration

/-- The host offers, before its other pending actions, a request with the control word `ctrl` and the
operand fields that stand on the port. -/
def State.offer (s : State) (ctrl : Ctrl) : State :=
  { s with inputs := .request { ctrl := ctrl, op := s.op } :: s.inputs }

end Sys2Proof.Machine
end

