-- ==== Sys2Proof/Machine/Assembler.lean ====
section
/-! DEFINITION. The assembler notation (30_encoding R70) and the pseudo-instructions (R71): a line, the
request it stands for, and its text. Notation only: no step reads it (DESIGN CHOICE, log entry 11). -/

namespace Sys2Proof.Machine

/-- One line of the assembler notation (R70), and the pseudo-instructions (R71). -/
inductive AsmLine where
  /-- `ENC.CMD W, V`, or with the suffix .REV. -/
  | encCmd (rev : Bool) (w : Half) (v : Bytes)
  /-- `CHKSUM A, R, M`. -/
  | chksum (a r : Byte) (m : Bytes)
  /-- `DEC.RESP RAW`. -/
  | decResp (raw : Bytes)
  /-- `RESP.ACK FRAME`. -/
  | respAck (frame : Bytes)
  /-- `DEC.DATA RAW`. -/
  | decData (raw : Bytes)
  /-- `SWA.ADD c, s`. -/
  | swaAdd (c : BitVec 8) (s : Int)
  /-- `MAP.STEP c, x`, or with the suffix .P. -/
  | mapStep (pres : Bool) (c : BitVec 8) (x : Int)
  /-- `LINMAP x, low, high, begin, end`. -/
  | linMap (x low high bg en : Int)
  /-- The pseudo-instruction `ENC.CMD W`. -/
  | encCmdNoValue (w : Half)
  /-- The pseudo-instruction `CHKSUM.SEED s, M`. -/
  | chksumSeed (s : Byte) (m : Bytes)
  /-- The pseudo-instruction `MAP.IDLE c`. -/
  | mapIdle (c : BitVec 8)
  deriving DecidableEq, Repr

/-- The expansion of a pseudo-instruction (R71); any other line is its own. -/
def AsmLine.expand : AsmLine → AsmLine
  | .encCmdNoValue w => .encCmd false w []
  | .chksumSeed s m => .chksum 0x00#8 s m
  | .mapIdle c => .mapStep false c 0
  | .encCmd rev w v => .encCmd rev w v
  | .chksum a r m => .chksum a r m
  | .decResp raw => .decResp raw
  | .respAck frame => .respAck frame
  | .decData raw => .decData raw
  | .swaAdd c s => .swaAdd c s
  | .mapStep pres c x => .mapStep pres c x
  | .linMap x low high bg en => .linMap x low high bg en

/-- The control word of a line (R70). -/
def AsmLine.ctrl : AsmLine → Ctrl
  | .encCmd rev _ _ => encode (.encCmd rev)
  | .chksum _ _ _ => encode .chksum
  | .decResp _ => encode .decResp
  | .respAck _ => encode .respAck
  | .decData _ => encode .decData
  | .swaAdd c _ => encode (.swaAdd c)
  | .mapStep pres c _ => encode (.mapStep pres c)
  | .linMap _ _ _ _ _ => encode .linMap
  | .encCmdNoValue _ => encode (.encCmd false)
  | .chksumSeed _ _ => encode .chksum
  | .mapIdle c => encode (.mapStep false c)

/-- The operand fields a line without pseudo-instruction gives (R70); the fields it does not name are
`noOperands`' (no request reads them, R56). -/
def AsmLine.coreOperands : AsmLine → Operands
  | .encCmd _ w v => { noOperands with w := w, b := v }
  | .chksum a r m => { noOperands with a := a, r := r, b := m }
  | .decResp raw => { noOperands with b := raw }
  | .respAck frame => { noOperands with b := frame }
  | .decData raw => { noOperands with b := raw }
  | .swaAdd _ s => { noOperands with s := BitVec.ofInt 64 s }
  | .mapStep _ _ x => { noOperands with x := BitVec.ofInt 64 x }
  | .linMap x low high bg en =>
    { noOperands with
      x := BitVec.ofInt 64 x, l := BitVec.ofInt 64 low, h := BitVec.ofInt 64 high,
      bg := BitVec.ofInt 64 bg, en := BitVec.ofInt 64 en }
  | .encCmdNoValue w => { noOperands with w := w }
  | .chksumSeed s m => { noOperands with r := s, b := m }
  | .mapIdle _ => noOperands

/-- The request a line stands for, a pseudo-instruction being expanded first (R70, R71). -/
def AsmLine.request (l : AsmLine) : Request :=
  { ctrl := l.expand.ctrl, op := l.expand.coreOperands }

/-- One hexadecimal digit. -/
def hexDigit (n : Nat) : Char :=
  if n < 10 then Char.ofNat (48 + n) else Char.ofNat (55 + n)

/-- A byte as a hex pair (R70). -/
def hexPair (b : Byte) : String :=
  String.ofList [hexDigit (b.toNat / 16), hexDigit (b.toNat % 16)]

/-- A 16-bit hex number. -/
def hexHalf (w : Half) : String :=
  "0x" ++ hexPair (BitVec.ofNat 8 (w.toNat / 256)) ++ hexPair (BitVec.ofNat 8 w.toNat)

/-- An 8-bit hex number. -/
def hexByte (b : Byte) : String := "0x" ++ hexPair b

/-- A byte string: hex pairs between braces (characters 123 and 125). -/
def bytesText (b : Bytes) : String :=
  String.ofList [Char.ofNat 123] ++ " ".intercalate (b.map hexPair) ++ String.ofList [Char.ofNat 125]

/-- A mnemonic and its operands, separated as in R70. -/
def lineText (mnemonic : String) (operands : List String) : String :=
  mnemonic ++ " " ++ ", ".intercalate operands

/-- The text of a line (R70, R71). -/
def AsmLine.text : AsmLine → String
  | .encCmd rev w v => lineText (if rev then "ENC.CMD.REV" else "ENC.CMD") [hexHalf w, bytesText v]
  | .chksum a r m => lineText "CHKSUM" [hexByte a, hexByte r, bytesText m]
  | .decResp raw => lineText "DEC.RESP" [bytesText raw]
  | .respAck frame => lineText "RESP.ACK" [bytesText frame]
  | .decData raw => lineText "DEC.DATA" [bytesText raw]
  | .swaAdd c s => lineText "SWA.ADD" [toString c.toNat, toString s]
  | .mapStep pres c x => lineText (if pres then "MAP.STEP.P" else "MAP.STEP") [toString c.toNat, toString x]
  | .linMap x low high bg en =>
    lineText "LINMAP" [toString x, toString low, toString high, toString bg, toString en]
  | .encCmdNoValue w => lineText "ENC.CMD" [hexHalf w]
  | .chksumSeed s m => lineText "CHKSUM.SEED" [hexByte s, bytesText m]
  | .mapIdle c => lineText "MAP.IDLE" [toString c.toNat]

end Sys2Proof.Machine
end

