-- ==== Sys2Proof/WellFormed.lean ====
section
/-! DEFINITION. Well-formedness of an instruction under a configuration: its channel exists. Every
term of `Instr` has an encoding (the CTRL fields are typed to their widths), so this is the one check
an instruction can fail, and the block answers a failing one with BAD_CHANNEL (60_exceptions R170).
The legality of a configuration (00_scope R8) is `Config.Legal` in Machine/Configuration.lean. -/

namespace Sys2Proof

/-- The channel operand names a channel of the configuration (R51, R170). -/
def Instr.wf (cfg : Config) : Instr → Bool
  | .encCmd _ => true
  | .chksum => true
  | .decResp => true
  | .respAck => true
  | .decData => true
  | .swaAdd ch => decide (ch.toNat < cfg.nswa)
  | .mapStep _ ch => decide (ch.toNat < cfg.nmap)
  | .linMap => true

end Sys2Proof
end

