-- ==== Sys2Proof/Safety.lean ====
section
/-! DEFINITION. What claims about the block are stated in: the invariant, when the block performs
requests, which operand fields an instruction reads, which statuses and results it may give, and the
samples a channel has been given. Nothing here is read by a step. -/

namespace Sys2Proof

/-- A response with no result field (30_encoding R59). -/
abbrev Response.NoResults (r : Response) : Prop :=
  r.bytes = none ∧ r.byte = none ∧ r.bit = none ∧ r.tgt = none ∧ r.val = none

/-- A non-OK response gives no result field (30_encoding R59, 60_exceptions R171). -/
abbrev Response.Precise (r : Response) : Prop := r.status ≠ .ok → r.NoResults

end Sys2Proof

namespace Sys2Proof.Machine

/-- An averager channel agrees with its configuration: N entries, each a W_S-bit signed value (10_state
R25), the cursor in [0, N-1] (R26), and the running sum equal to the sum of the buffer (R28). -/
abbrev ChannelOk (w : Nat) (k : SwaConfig) (c : SwaChannel) : Prop :=
  c.buf.length = k.n ∧ c.cur < k.n ∧ c.sum = c.buf.sum ∧ ∀ v ∈ c.buf, FitsSigned w v

/-- A mapper output lies between its channel's output bounds (10_state R29, 43_mapper R154). -/
abbrev OutOk (k : MapConfig) (o : Int) : Prop := k.outMin ≤ o ∧ o ≤ k.outMax

/-- Every averager channel of the configuration has a state, and it agrees. -/
abbrev State.AveragersOk (s : State) : Prop :=
  s.swa.length = s.cfg.swa.length ∧ ∀ p ∈ s.cfg.swa.zip s.swa, ChannelOk s.cfg.wS p.1 p.2

/-- Every mapper channel of the configuration has an output, and it is in range. -/
abbrev State.MappersOk (s : State) : Prop :=
  s.out.length = s.cfg.map.length ∧ ∀ p ∈ s.cfg.map.zip s.out, OutOk p.1 p.2

/-- The invariant: the configuration is legal (00_scope R8), the channel state agrees with it while
S.LIVE = 1, and no channel holds a value while S.LIVE = 0 (10_state R30). -/
abbrev State.Inv (s : State) : Prop :=
  s.cfg.Legal ∧ (s.live = true → s.AveragersOk ∧ s.MappersOk) ∧
  (s.live = false → s.swa = [] ∧ s.out = [])

/-- The conditions under which the block performs requests (00_scope R8, 70_reset R191). -/
abbrev State.Ready (s : State) : Prop := s.cfg.Legal ∧ s.live = true

/-- `P` occurs in `B` at `i`: `B[i..i+len(P)) = P` (00_scope R10). -/
abbrev OccursAt (p b : Bytes) (i : Nat) : Prop := (b.drop i).take p.length = p

/-- The instructions that read and write no state field (10_state R30, 20_memory R45). -/
def Stateless : Instr → Bool
  | .encCmd _ => true
  | .chksum => true
  | .decResp => true
  | .respAck => true
  | .decData => true
  | .swaAdd _ => false
  | .mapStep _ _ => false
  | .linMap => true

/-- Two operand records agree on the fields the instruction reads (30_encoding R56); MAP.STEP reads
OP.X only when PRES = 1 (43_mapper R152). -/
def AgreeOn : Instr → Operands → Operands → Prop
  | .encCmd _, p, q => p.w = q.w ∧ p.b = q.b
  | .chksum, p, q => p.a = q.a ∧ p.r = q.r ∧ p.b = q.b
  | .decResp, p, q => p.b = q.b
  | .respAck, p, q => p.b = q.b
  | .decData, p, q => p.b = q.b
  | .swaAdd _, p, q => p.s = q.s
  | .mapStep pres _, p, q => pres = true → p.x = q.x
  | .linMap, p, q => p.x = q.x ∧ p.l = q.l ∧ p.h = q.h ∧ p.bg = q.bg ∧ p.en = q.en

/-- An outcome with the operand fields of its next state replaced: what is left of two outcomes once
the operand fields of the port are disregarded. -/
def withOperands (op : Operands) : Result → Result
  | .next t => .next { t with op := op }
  | .fault f => .fault f
  | .refused r => .refused r

/-- The result fields an OK response of the instruction has, with the ranges 30_encoding R59 gives
them; every other field is absent. -/
def ResultShape (cfg : Config) (i : Instr) (r : Response) : Prop :=
  match i with
  | .encCmd _ =>
    r.byte = none ∧ r.bit = none ∧ r.tgt = none ∧ r.val = none ∧
    ∃ f, r.bytes = some f ∧ 12 ≤ f.length ∧ f.length ≤ cfg.bufMax
  | .chksum =>
    r.bytes = none ∧ r.bit = none ∧ r.tgt = none ∧ r.val = none ∧ ∃ c, r.byte = some c
  | .decResp =>
    r.byte = none ∧ r.tgt = none ∧ r.val = none ∧ (∃ l, r.bit = some l) ∧
    ∃ p, r.bytes = some p ∧ p.length ≤ cfg.bufMax - 8
  | .respAck =>
    r.bytes = none ∧ r.byte = none ∧ r.tgt = none ∧ r.val = none ∧ ∃ a, r.bit = some a
  | .decData =>
    r.bytes = none ∧ r.byte = none ∧ r.bit = none ∧ r.val = none ∧
    ∃ ts, r.tgt = some ts ∧ ts.length ≤ 3 ∧
      ∀ t ∈ ts, (-32767 ≤ t.x ∧ t.x ≤ 32767) ∧ (-32767 ≤ t.y ∧ t.y ≤ 32767)
  | .swaAdd _ =>
    r.bytes = none ∧ r.byte = none ∧ r.bit = none ∧ r.tgt = none ∧ ∃ v, r.val = some v
  | .mapStep _ _ =>
    r.bytes = none ∧ r.byte = none ∧ r.bit = none ∧ r.tgt = none ∧
    ∃ v, r.val = some v ∧ FitsSigned cfg.wM v
  | .linMap =>
    r.bytes = none ∧ r.byte = none ∧ r.bit = none ∧ r.tgt = none ∧
    ∃ v, r.val = some v ∧ FitsSigned cfg.wM v

/-- The assigned opcodes (30_encoding R53). -/
def assignedOpcodes : List Byte := [0x01, 0x02, 0x03, 0x04, 0x05, 0x10, 0x20, 0x21]

/-- The cause of a status, as the table of 60_exceptions R170 words it, for a request under a
configuration. -/
def causeHolds (cfg : Config) (r : Request) (st : Status) : Bool :=
  let opc := r.ctrl.extractLsb' 0 8
  let ch := r.ctrl.extractLsb' 8 8
  let n := r.op.b.length
  match st with
  | .ok => false
  | .illegalOp => !assignedOpcodes.contains opc
  | .reserved =>
    (r.ctrl.extractLsb' 18 14 != 0) || (ch != 0 && opc != 0x10 && opc != 0x20) ||
    (r.ctrl.getLsbD 16 && opc != 0x01) || (r.ctrl.getLsbD 17 && opc != 0x20)
  | .badChannel =>
    (opc == 0x10 && decide (cfg.nswa ≤ ch.toNat)) || (opc == 0x20 && decide (cfg.nmap ≤ ch.toNat))
  | .length =>
    (opc == 0x01 && (decide (65533 < n) || decide (cfg.bufMax < 12 + n))) ||
    ((opc == 0x02 || opc == 0x03 || opc == 0x04 || opc == 0x05) && decide (cfg.bufMax < n))
  | .range => opc == 0x21 && decide (sext cfg.wM r.op.h < sext cfg.wM r.op.l)
  | .framing =>
    opc == 0x03 && (List.range (n + 1)).all fun i => decide (¬ OccursAt [0xFD, 0xFC, 0xFB, 0xFA] r.op.b i)
  | .anomaly =>
    opc == 0x05 && (decide (n < 30) || decide (¬ OccursAt [0xAA, 0xFF, 0x03, 0x00] r.op.b (n - 30)))

/-- The order in which causes are reported (60_exceptions R172). FRAMING and ANOMALY never compete. -/
def priority : List Status :=
  [.illegalOp, .reserved, .badChannel, .length, .range, .framing, .anomaly]

/-- The first status of the list whose cause holds, OK if none does (60_exceptions R172). -/
def firstCause (cfg : Config) (r : Request) : List Status → Status
  | [] => .ok
  | st :: sts => if causeHolds cfg r st then st else firstCause cfg r sts

/-- The statuses an instruction may give once it is decoded (60_exceptions R170, "raised by"). -/
def statusesOf : Instr → List Status
  | .encCmd _ => [.ok, .length]
  | .chksum => [.ok, .length]
  | .decResp => [.ok, .length, .framing]
  | .respAck => [.ok, .length]
  | .decData => [.ok, .length, .anomaly]
  | .swaAdd _ => [.ok, .badChannel]
  | .mapStep _ _ => [.ok, .badChannel]
  | .linMap => [.ok, .range]

/-- The sample a request gives averager channel `c`, if it is a SWA.ADD on that channel. -/
def sampleOf (cfg : Config) (c : Nat) (r : Request) : Option Int :=
  match decodeCtrl r.ctrl with
  | .ok (.swaAdd ch) => if ch.toNat = c then some (sext cfg.wS r.op.s) else none
  | _ => none

/-- The samples the requests give averager channel `c`, in order (42_window_averager R132). -/
def samplesOf (cfg : Config) (c : Nat) (rs : List Request) : List Int :=
  rs.filterMap (sampleOf cfg c)

/-- The last `n` elements, or all of them if there are fewer. -/
def lastN (n : Nat) (l : List Int) : List Int := l.drop (l.length - n)

/-- `n` steps, stopping at the first fault or refusal: a run of the block (00_scope R13). -/
def stepN : Nat → State → Result
  | 0, s => .next s
  | n + 1, s =>
    match step s with
    | .next t => stepN n t
    | .fault f => .fault f
    | .refused r => .refused r

/-- The state an outcome goes on with, if it does. -/
def nextState? : Result → Option State
  | .next t => some t
  | _ => none

/-- The response an outcome ends with, if any. -/
def answer? (o : Result) : Option Response :=
  match o with
  | .next t => t.responses.getLast?
  | _ => none

end Sys2Proof.Machine
end

