-- ==== Sys2Proof/Certificates/Slice0/Obligations.lean ====
section
/-! DEFINITION. The statements for the provers. Each docstring names the rules of spec/ it formalises. -/

section

open Sys2Proof Sys2Proof.Machine

/-! ### Encoding -/

/-- 30_encoding R52 and R53: each opcode is selected, with no RESERVED status, exactly by the words of its
match and mask, with the fields R51 places at bits 16, 17 and 15:8; every other word gives ILLEGAL_OP where
its opcode is not assigned, and RESERVED where a bit neither of OPC nor free is set. -/
def Obligations.DecodeSelectsByMatchAndMask : Prop :=
  ∀ c : Ctrl,
    (∀ rev, decodeCtrl c = .ok (.encCmd rev) ↔
      c &&& 0xFFFEFFFF#32 = 0x00000001#32 ∧ rev = c.getLsbD 16) ∧
    (decodeCtrl c = .ok .chksum ↔ c &&& 0xFFFFFFFF#32 = 0x00000002#32) ∧
    (decodeCtrl c = .ok .decResp ↔ c &&& 0xFFFFFFFF#32 = 0x00000003#32) ∧
    (decodeCtrl c = .ok .respAck ↔ c &&& 0xFFFFFFFF#32 = 0x00000004#32) ∧
    (decodeCtrl c = .ok .decData ↔ c &&& 0xFFFFFFFF#32 = 0x00000005#32) ∧
    (∀ ch, decodeCtrl c = .ok (.swaAdd ch) ↔
      c &&& 0xFFFF00FF#32 = 0x00000010#32 ∧ ch = c.extractLsb' 8 8) ∧
    (∀ pres ch, decodeCtrl c = .ok (.mapStep pres ch) ↔
      c &&& 0xFFFD00FF#32 = 0x00000020#32 ∧ pres = c.getLsbD 17 ∧ ch = c.extractLsb' 8 8) ∧
    (decodeCtrl c = .ok .linMap ↔ c &&& 0xFFFFFFFF#32 = 0x00000021#32) ∧
    (∀ (opc : Byte) (st : Status), opc = c.extractLsb' 0 8 →
      (decodeCtrl c = .error st ↔
        (st = .illegalOp ∧ opc ∉ assignedOpcodes) ∨
        (st = .reserved ∧ opc ∈ assignedOpcodes ∧
          c &&& ~~~((if opc = 0x01#8 then 0x00010000#32
              else if opc = 0x10#8 then 0x0000FF00#32
              else if opc = 0x20#8 then 0x0002FF00#32
              else 0x00000000#32) ||| 0x000000FF#32) ≠ 0#32)))

/-- 30_encoding R51 to R53: decoding the word of an instruction gives it back, for every value of every
field. -/
def Obligations.EncodeThenDecode : Prop := ∀ i : Instr, decodeCtrl (encode i) = .ok i

/-- 30_encoding R52, R54: no bit of CTRL is ignored, so an instruction has one word. -/
def Obligations.DecodeThenEncode : Prop :=
  ∀ (c : Ctrl) (i : Instr), decodeCtrl c = .ok i → encode i = c

/-- 30_encoding R53, R70: words written out from the bit patterns decode to their instructions. -/
def Obligations.WorkedWordsDecode : Prop :=
  decodeCtrl 0b00000000000000010000000000000001#32 = .ok (.encCmd true) ∧
  decodeCtrl 0b00000000000000000000000000000010#32 = .ok .chksum ∧
  decodeCtrl 0b00000000000000000000010100010000#32 = .ok (.swaAdd 5#8) ∧
  decodeCtrl 0b00000000000000100000000100100000#32 = .ok (.mapStep true 1#8)

/-- 30_encoding R55: a request whose OPC is in one of the four unassigned ranges ends with ILLEGAL_OP;
nothing else changes. That the request's operand fields
still stand on the port after its response is the model's choice (DESIGN CHOICE, log entry 4). -/
def Obligations.UnassignedOpcodesAreIllegal : Prop :=
  ∀ (s : State) (r : Request) (rest : List Input) (n : Nat),
    s.Ready → s.inputs = .request r :: rest → n = (r.ctrl.extractLsb' 0 8).toNat →
    (n = 0x00 ∨ (0x06 ≤ n ∧ n ≤ 0x0F) ∨ (0x11 ≤ n ∧ n ≤ 0x1F) ∨ 0x22 ≤ n) →
    step s = .next { s with
      op := r.op, inputs := rest, responses := s.responses ++ [{ status := .illegalOp }] }

/-- 30_encoding R54: with an assigned opcode, a set bit of CTRL[31:18], or a nonzero CH, REV or PRES that
the opcode does not use, ends the request with RESERVED; nothing else changes. That the request's operand fields
still stand on the port after its response is the model's choice (DESIGN CHOICE, log entry 4). -/
def Obligations.ReservedBitsAreRefused : Prop :=
  ∀ (s : State) (r : Request) (rest : List Input) (opc : Byte),
    s.Ready → s.inputs = .request r :: rest → opc = r.ctrl.extractLsb' 0 8 → opc ∈ assignedOpcodes →
    (r.ctrl.extractLsb' 18 14 ≠ 0#14 ∨
      (r.ctrl.extractLsb' 8 8 ≠ 0#8 ∧ opc ≠ 0x10#8 ∧ opc ≠ 0x20#8) ∨
      (r.ctrl.getLsbD 16 = true ∧ opc ≠ 0x01#8) ∨
      (r.ctrl.getLsbD 17 = true ∧ opc ≠ 0x20#8)) →
    step s = .next { s with
      op := r.op, inputs := rest, responses := s.responses ++ [{ status := .reserved }] }

/-- 30_encoding R70, R71: the control words and operand fields of the assembler forms, and the expansions
of the pseudo-instructions. That the operand fields a line does not name are zero or the empty string is the
model's choice (DESIGN CHOICE, log entries 11 and 4): neither rule gives them a value. -/
def Obligations.AssemblerFormsGiveTheirWords : Prop :=
  (∀ w v, (AsmLine.encCmd false w v).request = { ctrl := 0x00000001#32, op := { noOperands with w := w, b := v } }) ∧
  (∀ w v, (AsmLine.encCmd true w v).request = { ctrl := 0x00010001#32, op := { noOperands with w := w, b := v } }) ∧
  (∀ a r m, (AsmLine.chksum a r m).request =
    { ctrl := 0x00000002#32, op := { noOperands with a := a, r := r, b := m } }) ∧
  (∀ b, (AsmLine.decResp b).request = { ctrl := 0x00000003#32, op := { noOperands with b := b } }) ∧
  (∀ b, (AsmLine.respAck b).request = { ctrl := 0x00000004#32, op := { noOperands with b := b } }) ∧
  (∀ b, (AsmLine.decData b).request = { ctrl := 0x00000005#32, op := { noOperands with b := b } }) ∧
  (∀ c v, (AsmLine.swaAdd c v).request.ctrl = BitVec.ofNat 32 (0x00000010 + 256 * c.toNat)) ∧
  (∀ c v, (AsmLine.mapStep false c v).request.ctrl = BitVec.ofNat 32 (0x00000020 + 256 * c.toNat)) ∧
  (∀ c v, (AsmLine.mapStep true c v).request.ctrl = BitVec.ofNat 32 (0x00020020 + 256 * c.toNat)) ∧
  (∀ x l h bg en, (AsmLine.linMap x l h bg en).request.ctrl = 0x00000021#32) ∧
  (∀ w c v, 1 ≤ w → w ≤ 64 → FitsSigned w v → sext w (AsmLine.swaAdd c v).request.op.s = v) ∧
  (∀ w p c v, 1 ≤ w → w ≤ 64 → FitsSigned w v → sext w (AsmLine.mapStep p c v).request.op.x = v) ∧
  (∀ w x l h bg en, 1 ≤ w → w ≤ 64 → FitsSigned w x → FitsSigned w l → FitsSigned w h →
    FitsSigned w bg → FitsSigned w en →
    ∃ op, op = (AsmLine.linMap x l h bg en).request.op ∧
      sext w op.x = x ∧ sext w op.l = l ∧ sext w op.h = h ∧ sext w op.bg = bg ∧ sext w op.en = en) ∧
  (∀ w, (AsmLine.encCmdNoValue w).request = (AsmLine.encCmd false w []).request) ∧
  (∀ b m, (AsmLine.chksumSeed b m).request = (AsmLine.chksum 0x00#8 b m).request) ∧
  (∀ c, (AsmLine.mapIdle c).request = (AsmLine.mapStep false c 0).request)

/-- 30_encoding R52, 10_state R31: when the host offers a request whose control word decodes to `i`, the
step is `exec i` on the state with the request's operand fields on the port and the request taken from
the host's pending actions. That these stand in the state is the model's choice (log entry 3). -/
def Obligations.StepRunsTheDecodedRequest : Prop :=
  ∀ (s : State) (r : Request) (rest : List Input) (i : Instr),
    s.cfg.Legal → s.inputs = .request r :: rest → decodeCtrl r.ctrl = .ok i →
    step s = exec i { s with op := r.op, inputs := rest }

/-! ### Command codec -/

/-- 40_command_codec R80 with the frame of 30_encoding R61 and R63: the whole of what ENC.CMD does, on
every operand. -/
def Obligations.EncCmdBuildsTheFrame : Prop :=
  (∀ (c : Ctrl) (rev : Bool), decodeCtrl c = .ok (.encCmd rev) ↔
    c = (if rev then 0x00010001#32 else 0x00000001#32)) ∧
  ∀ (s : State) (rev : Bool) (n : Nat), s.Ready → n = s.op.b.length →
    (65533 < n ∨ s.cfg.bufMax < 12 + n →
      exec (.encCmd rev) s = .next { s with responses := s.responses ++ [{ status := .length }] }) ∧
    (n ≤ 65533 ∧ 12 + n ≤ s.cfg.bufMax →
      exec (.encCmd rev) s = .next { s with
        responses := s.responses ++ [{
          status := .ok
          bytes := some (
            [0xFD#8, 0xFC#8, 0xFB#8, 0xFA#8] ++
            [BitVec.ofNat 8 ((2 + n) % 256), BitVec.ofNat 8 ((2 + n) / 256)] ++
            [s.op.w.extractLsb' 0 8, s.op.w.extractLsb' 8 8] ++
            (if rev then s.op.b.reverse else s.op.b) ++
            [0x04#8, 0x03#8, 0x02#8, 0x01#8]) }] })

/-- 40_command_codec R81: the whole of what CHKSUM does, on every operand. -/
def Obligations.ChksumFoldsTheMessage : Prop :=
  (∀ c : Ctrl, decodeCtrl c = .ok .chksum ↔ c = 0x00000002#32) ∧
  ∀ s : State, s.Ready →
    (s.cfg.bufMax < s.op.b.length →
      exec .chksum s = .next { s with responses := s.responses ++ [{ status := .length }] }) ∧
    (s.op.b.length ≤ s.cfg.bufMax →
      exec .chksum s = .next { s with
        responses := s.responses ++ [{
          status := .ok
          byte := some (s.op.b.foldr (fun m c => m ^^^ c) ((s.op.a + s.op.a) ^^^ s.op.r)) }] })

/-- 40_command_codec R81, corner cases: folding the message with its checksum appended gives 0x00, and the
order of the message bytes does not change the result. -/
def Obligations.AppendedChecksumFoldsToZero : Prop :=
  ∀ s : State, s.Ready → s.op.b.length + 1 ≤ s.cfg.bufMax →
    ∃ c : Byte,
      exec .chksum s = .next { s with responses := s.responses ++ [{ status := .ok, byte := some c }] } ∧
      (∀ t : State, t = { s with op := { s.op with b := s.op.b ++ [c] } } →
        exec .chksum t = .next { t with
          responses := t.responses ++ [{ status := .ok, byte := some 0x00#8 }] }) ∧
      (∀ (t : State) (m : Bytes), m.Perm s.op.b → t = { s with op := { s.op with b := m } } →
        exec .chksum t = .next { t with
          responses := t.responses ++ [{ status := .ok, byte := some c }] })

/-- 40_command_codec R82: the whole of what DEC.RESP does, on every operand. `h` is the place of the last
command header. -/
def Obligations.DecRespCutsAfterTheLastHeader : Prop :=
  (∀ c : Ctrl, decodeCtrl c = .ok .decResp ↔ c = 0x00000003#32) ∧
  ∀ (s : State) (raw : Bytes), s.Ready → raw = s.op.b →
    (s.cfg.bufMax < raw.length →
      exec .decResp s = .next { s with responses := s.responses ++ [{ status := .length }] }) ∧
    (raw.length ≤ s.cfg.bufMax → (∀ i, ¬ OccursAt [0xFD#8, 0xFC#8, 0xFB#8, 0xFA#8] raw i) →
      exec .decResp s = .next { s with responses := s.responses ++ [{ status := .framing }] }) ∧
    (∀ (h : Nat) (p : Bytes), raw.length ≤ s.cfg.bufMax →
      OccursAt [0xFD#8, 0xFC#8, 0xFB#8, 0xFA#8] raw h →
      (∀ i, h < i → ¬ OccursAt [0xFD#8, 0xFC#8, 0xFB#8, 0xFA#8] raw i) →
      p = (raw.take (raw.length - 4)).drop (h + 4) →
      exec .decResp s = .next { s with
        responses := s.responses ++ [{
          status := .ok
          bytes := some p
          bit := some (decide (2 ≤ p.length ∧
            (p.getD 0 0).toNat + 256 * (p.getD 1 0).toNat + 2 = p.length)) }] })

/-- 40_command_codec R83: the whole of what RESP.ACK does, on every operand. -/
def Obligations.RespAckTestsTheField : Prop :=
  (∀ c : Ctrl, decodeCtrl c = .ok .respAck ↔ c = 0x00000004#32) ∧
  ∀ s : State, s.Ready →
    (s.cfg.bufMax < s.op.b.length →
      exec .respAck s = .next { s with responses := s.responses ++ [{ status := .length }] }) ∧
    (s.op.b.length ≤ s.cfg.bufMax →
      exec .respAck s = .next { s with
        responses := s.responses ++ [{
          status := .ok
          bit := some (decide (6 ≤ s.op.b.length ∧ s.op.b[4]? = some 0x00#8 ∧ s.op.b[5]? = some 0x00#8)) }] })

/-- 40_command_codec R84: the round trip of a frame in which CMD_HDR occurs only at offset 0. -/
def Obligations.CommandRoundTrip : Prop :=
  ∀ (s t : State) (rev : Bool) (f : Bytes),
    s.Ready → t.Ready → t.cfg = s.cfg → s.op.b.length ≤ 65533 → 12 + s.op.b.length ≤ s.cfg.bufMax →
    answer? (exec (.encCmd rev) s) = some { status := .ok, bytes := some f } →
    (∀ i, OccursAt [0xFD#8, 0xFC#8, 0xFB#8, 0xFA#8] f i → i = 0) → t.op.b = f →
    ∃ p : Bytes,
      exec .decResp t = .next { t with
        responses := t.responses ++ [{ status := .ok, bytes := some p, bit := some true }] } ∧
      p = le16 (2 + s.op.b.length) ++ le16 s.op.w.toNat ++ (if rev then s.op.b.reverse else s.op.b) ∧
      (p.getD 2 0).toNat + 256 * (p.getD 3 0).toNat = s.op.w.toNat

/-! ### Data-frame decoder -/

/-- 41_data_decoder R110 and R111: the whole of what DEC.DATA does, on every operand. The result list is
given by its members and its order. -/
def Obligations.DecDataReportsTheTargets : Prop :=
  (∀ c : Ctrl, decodeCtrl c = .ok .decData ↔ c = 0x00000005#32) ∧
  ∀ (s : State) (raw : Bytes), s.Ready → raw = s.op.b →
    (s.cfg.bufMax < raw.length →
      exec .decData s = .next { s with responses := s.responses ++ [{ status := .length }] }) ∧
    (raw.length ≤ s.cfg.bufMax →
      raw.length < 30 ∨ (raw.drop (raw.length - 30)).take 4 ≠ [0xAA#8, 0xFF#8, 0x03#8, 0x00#8] →
      exec .decData s = .next { s with responses := s.responses ++ [{ status := .anomaly }] }) ∧
    (raw.length ≤ s.cfg.bufMax → 30 ≤ raw.length →
      (raw.drop (raw.length - 30)).take 4 = [0xAA#8, 0xFF#8, 0x03#8, 0x00#8] →
      ∃ ts : List Target,
        exec .decData s = .next { s with
          responses := s.responses ++ [{ status := .ok, tgt := some ts }] } ∧
        ts.Pairwise (fun t u => t.slot < u.slot) ∧
        ∀ (t : Target) (b : Nat), b = raw.length - 26 + 8 * t.slot.val →
          (t ∈ ts ↔
            t.x = osign s.cfg.osignHighPos (raw.getD (b + 1) 0 ++ raw.getD b 0) ∧
            t.y = osign s.cfg.osignHighPos (raw.getD (b + 3) 0 ++ raw.getD (b + 2) 0) ∧
            t.speed = raw.getD (b + 5) 0 ++ raw.getD (b + 4) 0 ∧
            t.res = raw.getD (b + 7) 0 ++ raw.getD (b + 6) 0 ∧
            ¬ (t.x = 0 ∧ t.y = 0)))

/-- 30_encoding R68: the offset-sign decode under both polarities, its range, and the two raw values that
decode to 0. -/
def Obligations.OffsetSignDecode : Prop :=
  (∀ raw : Half,
    (0x8000 ≤ raw.toNat → osign true raw = (raw.toNat : Int) - 0x8000 ∧
      osign false raw = 0x8000 - (raw.toNat : Int)) ∧
    (raw.toNat < 0x8000 → osign true raw = -(raw.toNat : Int) ∧ osign false raw = raw.toNat)) ∧
  (∀ (highPos : Bool) (raw : Half), -32767 ≤ osign highPos raw ∧ osign highPos raw ≤ 32767 ∧
    (osign highPos raw = 0 ↔ raw = 0x0000#16 ∨ raw = 0x8000#16))

/-- 41_data_decoder R110, corner cases: the bytes before the last 30 and the two footer bytes do not
change the response. -/
def Obligations.DecDataIgnoresLeftoversAndFooter : Prop :=
  ∀ (s t : State) (pre pre' frame ftr ftr' : Bytes),
    s.Ready → frame.length = 28 → ftr.length = 2 → ftr'.length = 2 →
    s.op.b = pre ++ frame ++ ftr → t = { s with op := { s.op with b := pre' ++ frame ++ ftr' } } →
    pre.length + 30 ≤ s.cfg.bufMax → pre'.length + 30 ≤ s.cfg.bufMax →
    ∃ r : Response,
      exec .decData s = .next { s with responses := s.responses ++ [r] } ∧
      exec .decData t = .next { t with responses := t.responses ++ [r] }

/-! ### Sliding-window averager -/

/-- 42_window_averager R130: what SWA.ADD does; the new sum is that of the new buffer, and the bound of the
result. The invariant (10_state R25 to R28) gives the channel its state. -/
def Obligations.SwaAddUpdatesTheWindow : Prop :=
  (∀ (c : Ctrl) (ch : BitVec 8), decodeCtrl c = .ok (.swaAdd ch) ↔
    c = BitVec.ofNat 32 (0x10 + 256 * ch.toNat)) ∧
  ∀ (s : State) (ch : BitVec 8), s.Inv → s.live = true →
    (s.cfg.nswa ≤ ch.toNat →
      exec (.swaAdd ch) s = .next { s with responses := s.responses ++ [{ status := .badChannel }] }) ∧
    (∀ k, s.cfg.swa[ch.toNat]? = some k →
      ∃ (c : SwaChannel) (old v sum : Int),
        s.swa[ch.toNat]? = some c ∧ c.buf[c.cur]? = some old ∧ v = sext s.cfg.wS s.op.s ∧
        sum = c.sum - old + v ∧ sum = (c.buf.set c.cur v).sum ∧
        |rne (sum * 10 ^ k.p) k.n| ≤ 2 ^ (s.cfg.wS - 1) * 10 ^ k.p ∧
        exec (.swaAdd ch) s = .next { s with
          swa := s.swa.set ch.toNat
            { buf := c.buf.set c.cur v, cur := (c.cur + 1) % k.n, sum := sum }
          responses := s.responses ++ [{ status := .ok, val := some (rne (sum * 10 ^ k.p) k.n) }] })

/-- 00_scope R11: RNE is the nearest integer, and the even one on a tie. -/
def Obligations.RneIsNearestEven : Prop :=
  ∀ a b : Int, 0 < b →
    |2 * (rne a b * b - a)| ≤ b ∧ (|2 * (rne a b * b - a)| = b → rne a b % 2 = 0)

/-- 42_window_averager R130 and 10_state R27: the bounds an implementation must hold, of the result and of
the running sum. -/
def Obligations.SwaValuesStayBounded : Prop :=
  ∀ (s t : State) (ch : BitVec 8) (k : SwaConfig) (r : Response) (q : Int),
    s.Inv → s.cfg.swa[ch.toNat]? = some k → exec (.swaAdd ch) s = .next t →
    t.responses = s.responses ++ [r] → r.val = some q →
    |q| ≤ 2 ^ (s.cfg.wS - 1) * 10 ^ k.p ∧
    ∃ c, t.swa[ch.toNat]? = some c ∧
      (k.n : Int) * -(2 ^ (s.cfg.wS - 1)) ≤ c.sum ∧ c.sum ≤ (k.n : Int) * (2 ^ (s.cfg.wS - 1) - 1)

/-- 42_window_averager R132 (and R131): after a reset, from any state, and any requests, a further SWA.ADD
on channel `c` answers the rounded average of the last N samples given to that channel since the reset,
zero-padded at the start (the divisor is N however few there are), and the cursor is their number
modulo N. -/
def Obligations.AveragerMatchesTheReference : Prop :=
  ∀ (s : State) (rest : List Input) (rs : List Request) (r : Request) (c : Nat) (k : SwaConfig) (v : Int),
    s.cfg.Legal → s.cfg.swa[c]? = some k → sampleOf s.cfg c r = some v →
    s.inputs = .reset :: ((rs ++ [r]).map Input.request ++ rest) →
    ∃ (t : State) (ch : SwaChannel),
      stepN (rs.length + 2) s = .next t ∧
      t.responses.getLast? = some {
        status := .ok
        val := some (rne (10 ^ k.p * (lastN k.n (samplesOf s.cfg c (rs ++ [r]))).sum) k.n) } ∧
      t.swa[c]? = some ch ∧ ch.cur = (samplesOf s.cfg c (rs ++ [r])).length % k.n

/-- 42_window_averager R130, 20_memory R45: SWA.ADD changes only its own channel's averager state and
appends one response. -/
def Obligations.SwaAddFrame : Prop :=
  ∀ (s t : State) (ch : BitVec 8), exec (.swaAdd ch) s = .next t →
    t.cfg = s.cfg ∧ t.live = s.live ∧ t.out = s.out ∧ t.op = s.op ∧ t.inputs = s.inputs ∧
    (∃ r, t.responses = s.responses ++ [r]) ∧
    (∀ c, c ≠ ch.toNat → t.swa[c]? = s.swa[c]?) ∧
    (∀ (c c' : SwaChannel) (i : Nat), s.swa[ch.toNat]? = some c → t.swa[ch.toNat]? = some c' →
      i ≠ c.cur → c'.buf[i]? = c.buf[i]?)

/-! ### Rate-limited mapper -/

/-- 43_mapper R150 and R151: the whole of what LINMAP does, on every operand, with Lean's own truncated
division. -/
def Obligations.LinMapRescales : Prop :=
  (∀ c : Ctrl, decodeCtrl c = .ok .linMap ↔ c = 0x00000021#32) ∧
  ∀ (s : State) (x low high bg en : Int), s.Ready →
    x = sext s.cfg.wM s.op.x → low = sext s.cfg.wM s.op.l → high = sext s.cfg.wM s.op.h →
    bg = sext s.cfg.wM s.op.bg → en = sext s.cfg.wM s.op.en →
    (high < low →
      exec .linMap s = .next { s with responses := s.responses ++ [{ status := .range }] }) ∧
    (low ≤ high →
      exec .linMap s = .next { s with
        responses := s.responses ++ [{
          status := .ok
          val := some (if low = high then bg
            else bg + Int.tdiv ((max low (min x high) - low) * (en - bg)) (high - low)) }] })

/-- 43_mapper R150, derived: LINMAP's result lies between begin and end, is begin at x <= low and end at
x >= high > low, and is a W_M-bit signed value. -/
def Obligations.LinMapStaysBetweenItsEnds : Prop :=
  ∀ (s : State) (x low high bg en : Int), s.Ready →
    x = sext s.cfg.wM s.op.x → low = sext s.cfg.wM s.op.l → high = sext s.cfg.wM s.op.h →
    bg = sext s.cfg.wM s.op.bg → en = sext s.cfg.wM s.op.en → low ≤ high →
    ∃ v : Int,
      exec .linMap s = .next { s with responses := s.responses ++ [{ status := .ok, val := some v }] } ∧
      min bg en ≤ v ∧ v ≤ max bg en ∧ FitsSigned s.cfg.wM v ∧
      (x ≤ low → v = bg) ∧ (low < high → high ≤ x → v = en)

/-- 43_mapper R152: what MAP.STEP does. The invariant gives the channel its output. -/
def Obligations.MapStepMovesTowardTheTarget : Prop :=
  (∀ (c : Ctrl) (pres : Bool) (ch : BitVec 8), decodeCtrl c = .ok (.mapStep pres ch) ↔
    c = BitVec.ofNat 32 ((if pres then 0x00020020 else 0x00000020) + 256 * ch.toNat)) ∧
  ∀ (s : State) (pres : Bool) (ch : BitVec 8), s.Inv → s.live = true →
    (s.cfg.nmap ≤ ch.toNat →
      exec (.mapStep pres ch) s =
        .next { s with responses := s.responses ++ [{ status := .badChannel }] }) ∧
    (∀ k, s.cfg.map[ch.toNat]? = some k →
      ∃ o t o2 : Int,
        s.out[ch.toNat]? = some o ∧
        t = (if pres then
            k.outMax + Int.tdiv
              ((max k.inMin (min (sext s.cfg.wM s.op.x) k.inMax) - k.inMin) * (k.outMin - k.outMax))
              (k.inMax - k.inMin)
          else k.rest) ∧
        o2 = o + max (-k.delta) (min (t - o) k.delta) ∧
        exec (.mapStep pres ch) s = .next { s with
          out := s.out.set ch.toNat o2
          responses := s.responses ++ [{ status := .ok, val := some o2 }] })

/-- 43_mapper R152, R154: one step changes the output by at most the limit, moves it toward the target
without passing it, lands on a target within the limit, leaves it where the limit is 0, and keeps it in
range. -/
def Obligations.MapStepIsRateLimited : Prop :=
  ∀ (s : State) (pres : Bool) (ch : BitVec 8) (k : MapConfig) (o t : Int),
    s.Inv → s.live = true → s.cfg.map[ch.toNat]? = some k → s.out[ch.toNat]? = some o →
    t = mapTarget k pres (sext s.cfg.wM s.op.x) →
    ∃ (u : State) (o2 : Int), exec (.mapStep pres ch) s = .next u ∧ u.out[ch.toNat]? = some o2 ∧
      |o2 - o| ≤ k.delta ∧ min o t ≤ o2 ∧ o2 ≤ max o t ∧ (|t - o| ≤ k.delta → o2 = t) ∧
      (k.delta = 0 → o2 = o) ∧ k.outMin ≤ o2 ∧ o2 ≤ k.outMax

/-- 43_mapper R153: successive MAP.STEP requests on one channel with one target `t` bring the output to
o + sign(t - o) * min(k * d, |t - o|), which is `t` exactly from the ceil(|t - o| / d)-th on. -/
def Obligations.MapperConverges : Prop :=
  ∀ (s : State) (pres : Bool) (ch : BitVec 8) (k : MapConfig) (o t : Int) (ops : List Operands)
    (rest : List Input),
    s.Inv → s.live = true → s.cfg.map[ch.toNat]? = some k → s.out[ch.toNat]? = some o → 0 < k.delta →
    (∀ op ∈ ops, mapTarget k pres (sext s.cfg.wM op.x) = t) →
    s.inputs = ops.map (fun op => Input.request { ctrl := encode (.mapStep pres ch), op := op }) ++ rest →
    ∃ (u : State) (o2 : Int), stepN ops.length s = .next u ∧ u.out[ch.toNat]? = some o2 ∧
      o2 = o + (t - o).sign * min (ops.length * k.delta) |t - o| ∧
      (o2 = t ↔ |t - o| ≤ ops.length * k.delta)

/-- 43_mapper R152, 20_memory R45: MAP.STEP changes only its own channel's output and appends one
response. -/
def Obligations.MapStepFrame : Prop :=
  ∀ (s t : State) (pres : Bool) (ch : BitVec 8), exec (.mapStep pres ch) s = .next t →
    t.cfg = s.cfg ∧ t.live = s.live ∧ t.swa = s.swa ∧ t.op = s.op ∧ t.inputs = s.inputs ∧
    (∃ r, t.responses = s.responses ++ [r]) ∧ (∀ m, m ≠ ch.toNat → t.out[m]? = s.out[m]?)

/-! ### Statuses -/

/-- 60_exceptions R170: the 8-bit codes of the statuses. -/
def Obligations.StatusCodes : Prop :=
  Status.ok.code = 0x00#8 ∧ Status.framing.code = 0x01#8 ∧ Status.anomaly.code = 0x02#8 ∧
  Status.illegalOp.code = 0x10#8 ∧ Status.reserved.code = 0x11#8 ∧ Status.badChannel.code = 0x12#8 ∧
  Status.length.code = 0x13#8 ∧ Status.range.code = 0x14#8

/-- 60_exceptions R170, "raised by": an instruction gives only the statuses the table lists for it. -/
def Obligations.StatusesByInstruction : Prop :=
  ∀ (i : Instr) (s t : State), exec i s = .next t →
    ∃ r, t.responses = s.responses ++ [r] ∧ r.status ∈ statusesOf i

/-- 60_exceptions R172 with the causes of R170: the status of a request is the first, in the order of R172,
whose cause holds, and OK if none does. -/
def Obligations.StatusIsTheFirstCause : Prop :=
  ∀ (s : State) (r : Request) (rest : List Input),
    s.Inv → s.live = true → s.inputs = .request r :: rest →
    ∃ (t : State) (q : Response), step s = .next t ∧ t.responses = s.responses ++ [q] ∧
      q.status = firstCause s.cfg r priority

/-- 60_exceptions R171: a request whose status is not OK changes no state field and gives no result field;
only its operands, its place in the host's actions and its response are left behind. That the request's operand fields
still stand on the port after its response is the model's choice (DESIGN CHOICE, log entry 4). -/
def Obligations.FailedRequestsWriteNothing : Prop :=
  ∀ (s t : State) (r : Request) (rest : List Input), s.inputs = .request r :: rest → step s = .next t →
    ∃ q : Response, t.responses = s.responses ++ [q] ∧
      (q.status ≠ .ok →
        q.NoResults ∧ t = { s with op := r.op, inputs := rest, responses := s.responses ++ [q] })

/-- 30_encoding R59: an OK response has the result fields of its opcode, in their ranges, and no other; any
other response has none. -/
def Obligations.ResultFieldsByInstruction : Prop :=
  ∀ (i : Instr) (s t : State), s.Inv → exec i s = .next t →
    ∃ r, t.responses = s.responses ++ [r] ∧
      (r.status = .ok → ResultShape s.cfg i r) ∧ (r.status ≠ .ok → r.NoResults)

/-! ### The machine -/

/-- 10_state R25 to R29, 43_mapper R154: every step keeps the invariant, from every state that meets it. -/
def Obligations.EveryStepKeepsTheInvariant : Prop :=
  ∀ s t : State, s.Inv → step s = .next t → t.Inv

/-- 10_state R32: the state after reset meets the invariant and is live. Its configuration is the model's
choice (log entries 1 and 2). -/
def Obligations.ResetMeetsTheInvariant : Prop := State.reset.Inv ∧ State.reset.live = true

/-- 70_reset R193, 00_scope R8: instantiating a legal configuration and asserting reset gives, whatever the
configuration, a live state that meets the invariant; an illegal one is refused. That the operand fields are zero and the
empty string at power-up and after that reset, and that no host action is pending and no response returned at
power-up, is the model's choice (DESIGN CHOICE, log entries 4 and 3): no rule states it. -/
def Obligations.BootSequence : Prop :=
  ∀ c : Config,
    (c.Legal →
      instantiate c = .next (State.powerUp c) ∧ (State.powerUp c).live = false ∧ (State.powerUp c).Inv ∧
      step { State.powerUp c with inputs := [.reset] } = .next (State.afterReset c) ∧
      (State.afterReset c).live = true ∧ (State.afterReset c).Inv) ∧
    (¬ c.Legal → instantiate c = .refused .illegalConfiguration)

/-- 70_reset R190 with the values of 10_state R32: from any state, reset writes every state field, changes
no configuration field and returns no response. That it leaves the operand fields of the request port as
they are is the model's choice (DESIGN CHOICE, log entry 4): no rule states it. -/
def Obligations.ResetWritesEveryField : Prop :=
  ∀ (s : State) (rest : List Input), s.cfg.Legal → s.inputs = .reset :: rest →
    step s = .next { s with
      inputs := rest
      live := true
      swa := s.cfg.swa.map fun k => { buf := List.replicate k.n 0, cur := 0, sum := 0 }
      out := s.cfg.map.map fun k => k.init }

/-- 70_reset R192: a reset while a request is unfinished abandons it: the step is that of the reset alone,
whatever the request. That the operand fields of the request port are left as they are over the reset is the
model's choice (DESIGN CHOICE, log entry 4), as is the host action that stands for a reset during a request
(log entries 3 and 7). -/
def Obligations.ResetAbandonsTheRequest : Prop :=
  ∀ (s : State) (r : Request) (rest : List Input), s.cfg.Legal → s.inputs = .resetDuring r :: rest →
    step s = .next { s with
      inputs := rest
      live := true
      swa := s.cfg.swa.map fun k => { buf := List.replicate k.n 0, cur := 0, sum := 0 }
      out := s.cfg.map.map fun k => k.init }

/-- 70_reset R191: while S.LIVE = 0 a request, whatever its control word, is stuck: not performed and not
answered. That the stuck state is a fault is the model's choice (log entry 7). -/
def Obligations.RequestsBeforeResetAreStuck : Prop :=
  ∀ s : State, s.cfg.Legal → s.live = false →
    (∀ i : Instr, exec i s = .fault .stuckBeforeReset) ∧
    (∀ (r : Request) (rest : List Input), s.inputs = .request r :: rest →
      step s = .fault .stuckBeforeReset)

/-- 00_scope R8: under an illegal configuration no request is performed and no step is taken (the model's
reading of R8, log entry 10). -/
def Obligations.IllegalConfigurationsAreRefused : Prop :=
  ∀ s : State, ¬ s.cfg.Legal →
    step s = .refused .illegalConfiguration ∧ ∀ i : Instr, exec i s = .refused .illegalConfiguration

/-- 70_reset R196, 10_state R31: every request offered after reset is answered with exactly one response, in
one step, whatever its control word and operands. -/
def Obligations.EveryRequestIsAnsweredOnce : Prop :=
  ∀ (s : State) (r : Request) (rest : List Input), s.Inv → s.live = true →
    s.inputs = .request r :: rest →
    ∃ (t : State) (q : Response),
      step s = .next t ∧ t.responses = s.responses ++ [q] ∧ t.inputs = rest ∧ t.live = true

/-- 20_memory R47: requests are performed one at a time in order, each from the state the earlier ones left;
the j-th response is that of the j-th request. -/
def Obligations.RequestsRunInOrder : Prop :=
  ∀ (s : State) (rs : List Request) (rest : List Input), s.Inv → s.live = true →
    s.inputs = rs.map Input.request ++ rest →
    ∃ (t : State) (qs : List Response),
      stepN rs.length s = .next t ∧ t.Inv ∧ t.inputs = rest ∧ t.responses = s.responses ++ qs ∧
      qs.length = rs.length ∧
      ∀ (j : Nat) (r : Request) (q : Response), rs[j]? = some r → qs[j]? = some q →
        ∃ u v : State, stepN j s = .next u ∧ u.responses = s.responses ++ qs.take j ∧
          u.inputs.head? = some (.request r) ∧ step u = .next v ∧ v.responses = u.responses ++ [q]

/-- 20_memory R45, 10_state R30: ENC.CMD, CHKSUM, DEC.RESP, RESP.ACK, DEC.DATA and LINMAP change nothing but
the responses, and give the same response every time. -/
def Obligations.StatelessInstructionsFrame : Prop :=
  ∀ (i : Instr) (s t : State), Stateless i = true → exec i s = .next t →
    ∃ r : Response, t = { s with responses := s.responses ++ [r] } ∧
      exec i t = .next { t with responses := t.responses ++ [r] }

/-- 10_state R24, R30: no step changes the configuration, S.LIVE never falls, and no request writes it. -/
def Obligations.ConfigurationAndLiveAreNotWritten : Prop :=
  (∀ s t : State, step s = .next t → t.cfg = s.cfg ∧ (s.live = true → t.live = true)) ∧
  (∀ (i : Instr) (s t : State), exec i s = .next t → t.cfg = s.cfg ∧ t.live = s.live)

/-- 30_encoding R56: an operand field the instruction does not read changes neither its response nor the
state it leaves. -/
def Obligations.UnreadOperandsDoNotMatter : Prop :=
  ∀ (i : Instr) (s : State) (op : Operands), AgreeOn i s.op op →
    exec i { s with op := op } = withOperands op (exec i s)

/-- 10_state R20, R21, R23: nothing but the averager and mapper state persists from one request to the next:
two states that agree on it (and on the configuration and S.LIVE) give a request the same response and
the same new state, whatever operands, responses and later requests they hold. -/
def Obligations.NothingElsePersists : Prop :=
  ∀ (s s' t : State) (r : Request) (rest rest' : List Input),
    s'.cfg = s.cfg → s'.live = s.live → s'.swa = s.swa → s'.out = s.out →
    s.inputs = .request r :: rest → s'.inputs = .request r :: rest' → step s = .next t →
    ∃ (t' : State) (q : Response), step s' = .next t' ∧
      t.responses = s.responses ++ [q] ∧ t'.responses = s'.responses ++ [q] ∧
      t'.swa = t.swa ∧ t'.out = t.out ∧ t'.live = t.live ∧ t'.cfg = t.cfg

/-- 60_exceptions R182, 00_scope R6: while the host offers nothing, the block holds its state unchanged. That
a step with nothing to do is a next state is the model's choice (log entry 3). -/
def Obligations.IdleBlockHoldsItsState : Prop :=
  ∀ s : State, s.cfg.Legal → s.inputs = [] → ∀ n : Nat, stepN n s = .next s

end
end

