-- ==== Sys2Proof/Laws/Arith.lean ====
section
/-! SUPPORT. What the integer functions of 00_scope R11 do, said once. -/

namespace Sys2Proof.Machine

theorem clamp_eq_max_min (v lo hi : Int) (h : lo ≤ hi) : clamp v lo hi = max lo (min v hi) := by
  unfold clamp; split <;> (try split) <;> omega

theorem clamp_mem (v lo hi : Int) (h : lo ≤ hi) : lo ≤ clamp v lo hi ∧ clamp v lo hi ≤ hi := by
  unfold clamp; split <;> (try split) <;> omega

/-- Clamping twice is clamping once (43_mapper R152, corner cases). -/
theorem clamp_clamp (v lo hi : Int) (h : lo ≤ hi) : clamp (clamp v lo hi) lo hi = clamp v lo hi := by
  unfold clamp; split <;> (try split) <;> (try split) <;> omega

/-- The division of R11 is Lean's truncated division. -/
theorem tdiv_eq (a b : Int) : tdiv a b = Int.tdiv a b := by
  unfold tdiv floorDiv
  split
  · rw [Int.tdiv_eq_ediv_of_nonneg (by assumption)]
  · have h := Int.neg_tdiv (a := -a) (b := b)
    rw [Int.neg_neg] at h
    rw [h, Int.tdiv_eq_ediv_of_nonneg (by omega)]

/-- The three cases of RNE, each with the remainder that leads to it. -/
theorem rne_cases (a b : Int) (hb : 0 < b) :
    ∃ f r, a = f * b + r ∧ 0 ≤ r ∧ r < b ∧
      ((2 * r < b ∧ rne a b = f) ∨ (b < 2 * r ∧ rne a b = f + 1) ∨
        (2 * r = b ∧ f % 2 = 0 ∧ rne a b = f) ∨ (2 * r = b ∧ f % 2 ≠ 0 ∧ rne a b = f + 1)) := by
  have h1 := Int.emod_add_mul_ediv a b
  have h2 := Int.emod_nonneg a (by omega : b ≠ 0)
  have h3 := Int.emod_lt_of_pos a hb
  have h4 : a / b * b = b * (a / b) := Int.mul_comm _ _
  refine ⟨a / b, a % b, by omega, h2, h3, ?_⟩
  have hr : a - a / b * b = a % b := by omega
  unfold rne floorDiv
  simp only [hr]
  split
  · exact .inl ⟨by assumption, rfl⟩
  · split
    · exact .inr (.inl ⟨by omega, rfl⟩)
    · split
      · exact .inr (.inr (.inl ⟨by omega, by assumption, rfl⟩))
      · exact .inr (.inr (.inr ⟨by omega, by assumption, rfl⟩))

end Sys2Proof.Machine
end

