-- ==== Sys2Proof/Laws/Bytes.lean ====
section
/-! SUPPORT. What the byte-string operations of 00_scope R10 do, said once. -/

namespace Sys2Proof.Machine

theorem isPrefixOf_iff_take (p b : Bytes) : p.isPrefixOf b = true ↔ b.take p.length = p := by
  rw [List.isPrefixOf_iff_prefix, List.prefix_iff_eq_take, eq_comm]

/-- `findLast` answers the largest place of an occurrence, and none if there is none. -/
theorem findLast_spec (p : Bytes) (b : Bytes) :
    match findLast p b with
    | some h => (b.drop h).take p.length = p ∧ ∀ i, h < i → i ≤ b.length → (b.drop i).take p.length ≠ p
    | none => ∀ i, i ≤ b.length → (b.drop i).take p.length ≠ p := by
  induction b with
  | nil =>
    unfold findLast
    by_cases h : p.isPrefixOf [] = true
    · have h' := (isPrefixOf_iff_take p []).1 h
      rw [if_pos h]
      refine ⟨by simpa using h', ?_⟩
      intro i hi hl
      simp only [List.length_nil] at hl
      omega
    · rw [if_neg h]
      intro i _ hp
      exact h ((isPrefixOf_iff_take p []).2 (by simpa using hp))
  | cons x xs ih =>
    unfold findLast
    cases hf : findLast p xs with
    | some h =>
      simp only [hf] at ih ⊢
      refine ⟨by simpa using ih.1, ?_⟩
      intro i hi hl
      cases i with
      | zero => omega
      | succ i => simpa using ih.2 i (by omega) (by simpa using hl)
    | none =>
      simp only [hf] at ih ⊢
      by_cases h : p.isPrefixOf (x :: xs) = true
      · simp only [h, if_true]
        refine ⟨by simpa using (isPrefixOf_iff_take p (x :: xs)).1 h, ?_⟩
        intro i hi hl
        cases i with
        | zero => omega
        | succ i => simpa using ih i (by simpa using hl)
      · simp only [h]
        intro i hl
        cases i with
        | zero => exact fun hp => h ((isPrefixOf_iff_take p (x :: xs)).2 (by simpa using hp))
        | succ i => simpa using ih i (by simpa using hl)

theorem slice_length (b : Bytes) (i j : Nat) : (slice b i j).length = min (j - i) (b.length - i) := by
  simp [slice]

/-- A slice is a prefix of the bytes up to `j`, from `i` on. -/
theorem slice_eq_drop_take (b : Bytes) (i j : Nat) : slice b i j = (b.take j).drop i := by
  rw [slice, List.drop_take]

@[simp] theorem le16_length (v : Nat) : (le16 v).length = 2 := rfl

/-- Reading two bytes as little-endian is putting the second above the first. -/
theorem le16Value_eq_append (b0 b1 : Byte) : le16Value b0 b1 = (b1 ++ b0 : BitVec (8 + 8)) := by
  apply BitVec.eq_of_toNat_eq
  have h0 := b0.isLt
  have h1 := b1.isLt
  rw [le16Value, BitVec.toNat_ofNat, BitVec.toNat_append, Nat.shiftLeft_eq,
    Nat.mul_comm b1.toNat (2 ^ 8), ← Nat.two_pow_add_eq_or_of_lt h0]
  omega

end Sys2Proof.Machine
end

