-- ==== Sys2Proof/Laws/Decode.lean ====
section
/-! SUPPORT. The fields of a control word, said once (30_encoding R51). -/

namespace Sys2Proof

@[simp] theorem ctrlOpc_ctrlWord (opc ch : Byte) (rev pres : Bool) :
    ctrlOpc (ctrlWord opc ch rev pres) = opc := by
  apply BitVec.eq_of_getLsbD_eq
  intro j hj
  interval_cases j <;> simp [ctrlOpc, ctrlWord]

@[simp] theorem ctrlCh_ctrlWord (opc ch : Byte) (rev pres : Bool) :
    ctrlCh (ctrlWord opc ch rev pres) = ch := by
  apply BitVec.eq_of_getLsbD_eq
  intro j hj
  interval_cases j <;> simp [ctrlCh, ctrlWord]

@[simp] theorem ctrlRev_ctrlWord (opc ch : Byte) (rev pres : Bool) :
    ctrlRev (ctrlWord opc ch rev pres) = rev := by
  simp [ctrlRev, ctrlWord]

@[simp] theorem ctrlPres_ctrlWord (opc ch : Byte) (rev pres : Bool) :
    ctrlPres (ctrlWord opc ch rev pres) = pres := by
  simp [ctrlPres, ctrlWord]

/-- A word whose RSVD field is 0 is the word of its fields. -/
theorem eq_ctrlWord_of_rsvd (c : Ctrl) (h : c.extractLsb' 18 14 = 0#14) :
    c = ctrlWord (ctrlOpc c) (ctrlCh c) (ctrlRev c) (ctrlPres c) := by
  apply BitVec.eq_of_getLsbD_eq
  intro j hj
  by_cases h18 : 18 ≤ j
  · have hb := congrArg (fun v => v.getLsbD (j - 18)) h
    have hk : 18 + (j - 18) = j := by omega
    have h14 : j - 18 < 14 := by omega
    have hb' : c.getLsbD j = false := by simpa [BitVec.getLsbD_extractLsb', h14, hk] using hb
    rw [hb']
    interval_cases j <;> simp [ctrlWord]
  · interval_cases j <;> simp [ctrlWord, ctrlOpc, ctrlCh, ctrlRev, ctrlPres]

/-- The word of an instruction, by its opcode and fields. -/
theorem encode_eq (i : Instr) : ∃ ch rev pres, encode i = ctrlWord i.opcode.code ch rev pres := by
  cases i <;> exact ⟨_, _, _, rfl⟩

@[simp] theorem Opcode.ofCode_code (o : Opcode) : Opcode.ofCode o.code = some o := by
  cases o <;> decide

theorem Opcode.code_of_ofCode {b : Byte} {o : Opcode} (h : Opcode.ofCode b = some o) : o.code = b := by
  simpa using List.find?_some h

end Sys2Proof
end

