-- ==== Sys2Proof/Laws/State.lean ====
section
/-! SUPPORT. What each update of the state does to each field: one lemma per field per update. -/

namespace Sys2Proof.Machine

@[simp] theorem State.reply_cfg (s : State) (r : Response) : (s.reply r).cfg = s.cfg := rfl
@[simp] theorem State.reply_live (s : State) (r : Response) : (s.reply r).live = s.live := rfl
@[simp] theorem State.reply_swa (s : State) (r : Response) : (s.reply r).swa = s.swa := rfl
@[simp] theorem State.reply_out (s : State) (r : Response) : (s.reply r).out = s.out := rfl
@[simp] theorem State.reply_op (s : State) (r : Response) : (s.reply r).op = s.op := rfl
@[simp] theorem State.reply_inputs (s : State) (r : Response) : (s.reply r).inputs = s.inputs := rfl
@[simp] theorem State.reply_responses (s : State) (r : Response) :
    (s.reply r).responses = s.responses ++ [r] := rfl

@[simp] theorem State.setSwa_cfg (s : State) (c : Nat) (ch : SwaChannel) : (s.setSwa c ch).cfg = s.cfg := rfl
@[simp] theorem State.setSwa_live (s : State) (c : Nat) (ch : SwaChannel) : (s.setSwa c ch).live = s.live := rfl
@[simp] theorem State.setSwa_swa (s : State) (c : Nat) (ch : SwaChannel) :
    (s.setSwa c ch).swa = s.swa.set c ch := rfl
@[simp] theorem State.setSwa_out (s : State) (c : Nat) (ch : SwaChannel) : (s.setSwa c ch).out = s.out := rfl
@[simp] theorem State.setSwa_op (s : State) (c : Nat) (ch : SwaChannel) : (s.setSwa c ch).op = s.op := rfl
@[simp] theorem State.setSwa_inputs (s : State) (c : Nat) (ch : SwaChannel) :
    (s.setSwa c ch).inputs = s.inputs := rfl
@[simp] theorem State.setSwa_responses (s : State) (c : Nat) (ch : SwaChannel) :
    (s.setSwa c ch).responses = s.responses := rfl

@[simp] theorem State.setOut_cfg (s : State) (m : Nat) (v : Int) : (s.setOut m v).cfg = s.cfg := rfl
@[simp] theorem State.setOut_live (s : State) (m : Nat) (v : Int) : (s.setOut m v).live = s.live := rfl
@[simp] theorem State.setOut_swa (s : State) (m : Nat) (v : Int) : (s.setOut m v).swa = s.swa := rfl
@[simp] theorem State.setOut_out (s : State) (m : Nat) (v : Int) : (s.setOut m v).out = s.out.set m v := rfl
@[simp] theorem State.setOut_op (s : State) (m : Nat) (v : Int) : (s.setOut m v).op = s.op := rfl
@[simp] theorem State.setOut_inputs (s : State) (m : Nat) (v : Int) : (s.setOut m v).inputs = s.inputs := rfl
@[simp] theorem State.setOut_responses (s : State) (m : Nat) (v : Int) :
    (s.setOut m v).responses = s.responses := rfl

@[simp] theorem State.accept_cfg (s : State) (r : Request) (l : List Input) : (s.accept r l).cfg = s.cfg := rfl
@[simp] theorem State.accept_live (s : State) (r : Request) (l : List Input) : (s.accept r l).live = s.live := rfl
@[simp] theorem State.accept_swa (s : State) (r : Request) (l : List Input) : (s.accept r l).swa = s.swa := rfl
@[simp] theorem State.accept_out (s : State) (r : Request) (l : List Input) : (s.accept r l).out = s.out := rfl
@[simp] theorem State.accept_op (s : State) (r : Request) (l : List Input) : (s.accept r l).op = r.op := rfl
@[simp] theorem State.accept_inputs (s : State) (r : Request) (l : List Input) : (s.accept r l).inputs = l := rfl
@[simp] theorem State.accept_responses (s : State) (r : Request) (l : List Input) :
    (s.accept r l).responses = s.responses := rfl

@[simp] theorem State.applyReset_cfg (s : State) : s.applyReset.cfg = s.cfg := rfl
@[simp] theorem State.applyReset_live (s : State) : s.applyReset.live = true := rfl
@[simp] theorem State.applyReset_swa (s : State) :
    s.applyReset.swa = s.cfg.swa.map SwaChannel.afterReset := rfl
@[simp] theorem State.applyReset_out (s : State) : s.applyReset.out = s.cfg.map.map MapConfig.init := rfl
@[simp] theorem State.applyReset_op (s : State) : s.applyReset.op = s.op := rfl
@[simp] theorem State.applyReset_inputs (s : State) : s.applyReset.inputs = s.inputs := rfl
@[simp] theorem State.applyReset_responses (s : State) : s.applyReset.responses = s.responses := rfl

@[simp] theorem State.offer_cfg (s : State) (c : Ctrl) : (s.offer c).cfg = s.cfg := rfl
@[simp] theorem State.offer_live (s : State) (c : Ctrl) : (s.offer c).live = s.live := rfl
@[simp] theorem State.offer_swa (s : State) (c : Ctrl) : (s.offer c).swa = s.swa := rfl
@[simp] theorem State.offer_out (s : State) (c : Ctrl) : (s.offer c).out = s.out := rfl
@[simp] theorem State.offer_op (s : State) (c : Ctrl) : (s.offer c).op = s.op := rfl
@[simp] theorem State.offer_inputs (s : State) (c : Ctrl) :
    (s.offer c).inputs = .request { ctrl := c, op := s.op } :: s.inputs := rfl
@[simp] theorem State.offer_responses (s : State) (c : Ctrl) : (s.offer c).responses = s.responses := rfl

/-- Resetting is the same once more (70_reset R190). -/
@[simp] theorem State.applyReset_applyReset (s : State) : s.applyReset.applyReset = s.applyReset := rfl

end Sys2Proof.Machine
end

