-- ==== Sys2Proof/Laws/Ops.lean ====
section
/-! SUPPORT. What the shared operations can do, said once: performing, and the outcomes of an
instruction and of a step. -/

namespace Sys2Proof.Machine

theorem perform_of_ready {s : State} {body : Result} (hc : s.cfg.Legal) (hl : s.live = true) :
    s.perform body = body := by
  rw [State.perform, if_pos hc, if_pos hl]

theorem perform_of_not_live {s : State} {body : Result} (hc : s.cfg.Legal) (hl : s.live = false) :
    s.perform body = .fault .stuckBeforeReset := by
  rw [State.perform, if_pos hc, if_neg (by simp [hl])]

theorem perform_of_illegal {s : State} {body : Result} (hc : ¬ s.cfg.Legal) :
    s.perform body = .refused .illegalConfiguration := by
  rw [State.perform, if_neg hc]

/-- Performing has three cases. -/
theorem perform_cases (s : State) :
    (s.cfg.Legal ∧ s.live = true ∧ ∀ body : Result, s.perform body = body) ∨
    (s.cfg.Legal ∧ s.live = false ∧ ∀ body : Result, s.perform body = .fault .stuckBeforeReset) ∨
    (¬ s.cfg.Legal ∧ ∀ body : Result, s.perform body = .refused .illegalConfiguration) := by
  by_cases hc : s.cfg.Legal
  · cases hl : s.live
    · exact .inr (.inl ⟨hc, rfl, fun _ => perform_of_not_live hc hl⟩)
    · exact .inl ⟨hc, rfl, fun _ => perform_of_ready hc hl⟩
  · exact .inr (.inr ⟨hc, fun _ => perform_of_illegal hc⟩)

/-- Performing depends on the configuration and S.LIVE alone. -/
theorem perform_congr {s s' : State} (hc : s'.cfg = s.cfg) (hl : s'.live = s.live) (body : Result) :
    s'.perform body = s.perform body := by
  rw [State.perform, State.perform, hc, hl]

/-- If performing answers a next state, the block was ready and the body answers it. -/
theorem perform_next {s t : State} {body : Result} (h : s.perform body = .next t) :
    s.cfg.Legal ∧ s.live = true ∧ body = .next t := by
  by_cases hc : s.cfg.Legal
  · cases hl : s.live
    · rw [perform_of_not_live hc hl] at h
      cases h
    · exact ⟨hc, rfl, by rwa [perform_of_ready hc hl] at h⟩
  · rw [perform_of_illegal hc] at h
    cases h

/-- Every instruction performs: it is its own body, guarded. -/
theorem exec_eq_perform (i : Instr) (s : State) : ∃ body, exec i s = s.perform body := by
  cases i <;> exact ⟨_, rfl⟩

/-- If SWA.ADD answers a next state, it reported BAD_CHANNEL or updated the window of its channel. -/
theorem execSwaAdd_next {ch : BitVec 8} {s t : State} (h : execSwaAdd ch s = .next t) :
    s.cfg.Legal ∧ s.live = true ∧
    ((s.cfg.swa[ch.toNat]? = none ∧ t = s.reply { status := .badChannel }) ∨
      ∃ k c old, s.cfg.swa[ch.toNat]? = some k ∧ s.swa[ch.toNat]? = some c ∧ c.buf[c.cur]? = some old ∧
        t = (s.setSwa ch.toNat (c.add k old s.opS)).reply
          { status := .ok, val := some (windowAverage k (c.add k old s.opS).sum) }) := by
  obtain ⟨hc, hl, hb⟩ := perform_next h
  refine ⟨hc, hl, ?_⟩
  cases hk : s.cfg.swa[ch.toNat]? with
  | none =>
    simp only [hk] at hb
    exact .inl ⟨rfl, (Host.Outcome.next.inj hb).symm⟩
  | some k =>
    cases hs : s.swa[ch.toNat]? with
    | none => simp only [hk, hs] at hb; cases hb
    | some c =>
      cases ho : c.buf[c.cur]? with
      | none => simp only [hk, hs, ho] at hb; cases hb
      | some old =>
        simp only [hk, hs, ho] at hb
        exact .inr ⟨k, c, old, rfl, rfl, ho, (Host.Outcome.next.inj hb).symm⟩

/-- If MAP.STEP answers a next state, it reported BAD_CHANNEL or moved the output of its channel. -/
theorem execMapStep_next {pres : Bool} {ch : BitVec 8} {s t : State}
    (h : execMapStep pres ch s = .next t) :
    s.cfg.Legal ∧ s.live = true ∧
    ((s.cfg.map[ch.toNat]? = none ∧ t = s.reply { status := .badChannel }) ∨
      ∃ k o o2, s.cfg.map[ch.toNat]? = some k ∧ s.out[ch.toNat]? = some o ∧
        o2 = deltaStep k.delta (mapTarget k pres s.opX) o ∧
        t = (s.setOut ch.toNat o2).reply { status := .ok, val := some o2 }) := by
  obtain ⟨hc, hl, hb⟩ := perform_next h
  refine ⟨hc, hl, ?_⟩
  cases hk : s.cfg.map[ch.toNat]? with
  | none =>
    simp only [hk] at hb
    exact .inl ⟨rfl, (Host.Outcome.next.inj hb).symm⟩
  | some k =>
    cases hs : s.out[ch.toNat]? with
    | none => simp only [hk, hs] at hb; cases hb
    | some o =>
      simp only [hk, hs] at hb
      exact .inr ⟨k, o, _, rfl, rfl, rfl, (Host.Outcome.next.inj hb).symm⟩

/-- If a step answers a next state, the configuration is legal and the host offered nothing, asserted
reset, or offered a request that was run. -/
theorem step_next {s t : State} (h : step s = .next t) :
    s.cfg.Legal ∧
    ((s.inputs = [] ∧ t = s) ∨
      (∃ rest, s.inputs = .reset :: rest ∧ t = { s with inputs := rest }.applyReset) ∨
      (∃ r rest, s.inputs = .resetDuring r :: rest ∧ t = { s with inputs := rest }.applyReset) ∨
      (∃ r rest, s.inputs = .request r :: rest ∧ runCtrl r.ctrl (s.accept r rest) = .next t)) := by
  unfold step runNext at h
  split at h
  · rename_i hc
    refine ⟨hc, ?_⟩
    cases hi : s.inputs with
    | nil =>
      simp only [hi] at h
      exact .inl ⟨rfl, (Host.Outcome.next.inj h).symm⟩
    | cons a rest =>
      simp only [hi] at h
      cases a with
      | request r => exact .inr (.inr (.inr ⟨r, rest, rfl, h⟩))
      | reset => exact .inr (.inl ⟨rest, rfl, (Host.Outcome.next.inj h).symm⟩)
      | resetDuring r => exact .inr (.inr (.inl ⟨r, rest, rfl, (Host.Outcome.next.inj h).symm⟩))
  · cases h

/-- If a request is run to a next state, its word decoded and the instruction answered it, or the decode
error was reported. -/
theorem runCtrl_next {c : Ctrl} {s t : State} (h : runCtrl c s = .next t) :
    (∃ i, decodeCtrl c = .ok i ∧ exec i s = .next t) ∨
      (∃ st, decodeCtrl c = .error st ∧ s.cfg.Legal ∧ s.live = true ∧ t = s.reply { status := st }) := by
  unfold runCtrl at h
  split at h
  · rename_i i hd
    exact .inl ⟨i, hd, h⟩
  · rename_i st hd
    obtain ⟨hc, hl, hb⟩ := perform_next h
    exact .inr ⟨st, hd, hc, hl, (Host.Outcome.next.inj hb).symm⟩

end Sys2Proof.Machine
end

