-- ==== Sys2Proof/Laws/Exec.lean ====
section
/-! SUPPORT. What each instruction can do, said once. A stateless instruction ends with a response that is
a function of the configuration and the operand fields; SWA.ADD and MAP.STEP have `execSwaAdd_next` and
`execMapStep_next` (Laws/Ops.lean). -/

namespace Sys2Proof.Machine

/-- The response of a stateless instruction. -/
def statelessResponse (i : Instr) (cfg : Config) (op : Operands) : Response :=
  match i with
  | .encCmd rev =>
    if 65533 < op.b.length ∨ cfg.bufMax < 12 + op.b.length then { status := .length }
    else { status := .ok, bytes := some (commandFrame rev op.w op.b) }
  | .chksum =>
    if cfg.bufMax < op.b.length then { status := .length }
    else { status := .ok, byte := some (checksum op.a op.r op.b) }
  | .decResp =>
    if cfg.bufMax < op.b.length then { status := .length }
    else
      match findLast cmdHdr op.b with
      | none => { status := .framing }
      | some h =>
        { status := .ok
          bytes := some (slice op.b (h + 4) (op.b.length - 4))
          bit := some (lenOk (slice op.b (h + 4) (op.b.length - 4))) }
  | .respAck =>
    if cfg.bufMax < op.b.length then { status := .length }
    else { status := .ok, bit := some (ackBit op.b) }
  | .decData =>
    if cfg.bufMax < op.b.length then { status := .length }
    else if op.b.length < 30 then { status := .anomaly }
    else if slice op.b (op.b.length - 30) (op.b.length - 26) ≠ dataHdr then { status := .anomaly }
    else { status := .ok, tgt := some (decodeTargets cfg.osignHighPos op.b) }
  | .swaAdd _ => { status := .ok }
  | .mapStep _ _ => { status := .ok }
  | .linMap =>
    if sext cfg.wM op.h < sext cfg.wM op.l then { status := .range }
    else
      { status := .ok
        val := some (linearMap (sext cfg.wM op.x) (sext cfg.wM op.l) (sext cfg.wM op.h)
          (sext cfg.wM op.bg) (sext cfg.wM op.en)) }

/-- A stateless instruction, once performed, only appends its response. -/
theorem exec_stateless {i : Instr} (h : Stateless i = true) (s : State) :
    exec i s = s.perform (.next (s.reply (statelessResponse i s.cfg s.op))) := by
  cases i with
  | encCmd rev =>
    show execEncCmd rev s = _
    unfold execEncCmd statelessResponse
    congr 1
    split <;> rfl
  | chksum =>
    show execChksum s = _
    unfold execChksum statelessResponse
    congr 1
    split <;> rfl
  | decResp =>
    show execDecResp s = _
    unfold execDecResp statelessResponse
    congr 1
    split
    · rfl
    · cases findLast cmdHdr s.op.b <;> rfl
  | respAck =>
    show execRespAck s = _
    unfold execRespAck statelessResponse
    congr 1
    split <;> rfl
  | decData =>
    show execDecData s = _
    unfold execDecData statelessResponse
    congr 1
    split
    · rfl
    · split
      · rfl
      · split <;> rfl
  | swaAdd _ => cases h
  | mapStep _ _ => cases h
  | linMap =>
    show execLinMap s = _
    unfold execLinMap statelessResponse State.opX State.opL State.opH State.opBG State.opEN
    congr 1
    split <;> rfl

/-- If a stateless instruction answers a next state, the block was ready and only its response was
appended. -/
theorem exec_stateless_next {i : Instr} {s t : State} (h : Stateless i = true) (hn : exec i s = .next t) :
    s.cfg.Legal ∧ s.live = true ∧ t = s.reply (statelessResponse i s.cfg s.op) := by
  rw [exec_stateless h] at hn
  obtain ⟨hc, hl, hb⟩ := perform_next hn
  exact ⟨hc, hl, (Host.Outcome.next.inj hb).symm⟩

/-- The response of a stateless instruction is one of its statuses, and precise. -/
theorem statelessResponse_status {i : Instr} (h : Stateless i = true) (cfg : Config) (op : Operands) :
    (statelessResponse i cfg op).status ∈ statusesOf i ∧ (statelessResponse i cfg op).Precise := by
  cases i with
  | swaAdd _ => cases h
  | mapStep _ _ => cases h
  | _ =>
    simp only [statelessResponse]
    (repeat' split) <;> simp [statusesOf, Response.Precise, Response.NoResults]

/-- The response of a stateless instruction depends only on the operand fields it reads. -/
theorem statelessResponse_congr {i : Instr} (h : Stateless i = true) (cfg : Config) {p q : Operands}
    (ha : AgreeOn i p q) : statelessResponse i cfg p = statelessResponse i cfg q := by
  cases i with
  | swaAdd _ => cases h
  | mapStep _ _ => cases h
  | encCmd rev => obtain ⟨h1, h2⟩ := ha; simp only [statelessResponse, h1, h2]
  | chksum => obtain ⟨h1, h2, h3⟩ := ha; simp only [statelessResponse, h1, h2, h3]
  | linMap => obtain ⟨h1, h2, h3, h4, h5⟩ := ha; simp only [statelessResponse, h1, h2, h3, h4, h5]
  | decResp => replace ha : p.b = q.b := ha; simp only [statelessResponse, ha]
  | respAck => replace ha : p.b = q.b := ha; simp only [statelessResponse, ha]
  | decData => replace ha : p.b = q.b := ha; simp only [statelessResponse, ha]

end Sys2Proof.Machine
end

