-- ==== Sys2Proof/Laws/Invariant.lean ====
section
/-! SUPPORT. The invariant's channel clauses by index, and what writing one channel does to them. -/

namespace Sys2Proof.Machine

/-- Under the invariant's averager clause, a channel of the configuration has a state that agrees. -/
theorem AveragersOk.get {s : State} (h : s.AveragersOk) {c : Nat} {k : SwaConfig}
    (hk : s.cfg.swa[c]? = some k) : ∃ ch, s.swa[c]? = some ch ∧ ChannelOk s.cfg.wS k ch := by
  obtain ⟨hlen, hall⟩ := h
  obtain ⟨hc, -⟩ := List.getElem?_eq_some_iff.1 hk
  have hs : s.swa[c]? = some (s.swa[c]'(by omega)) := List.getElem?_eq_getElem _
  refine ⟨_, hs, ?_⟩
  exact hall (k, s.swa[c]'(by omega)) (List.mem_of_getElem? (List.getElem?_zip_eq_some.2 ⟨hk, hs⟩))

/-- Under the invariant's mapper clause, a channel of the configuration has an output in range. -/
theorem MappersOk.get {s : State} (h : s.MappersOk) {m : Nat} {k : MapConfig}
    (hk : s.cfg.map[m]? = some k) : ∃ o, s.out[m]? = some o ∧ OutOk k o := by
  obtain ⟨hlen, hall⟩ := h
  obtain ⟨hc, -⟩ := List.getElem?_eq_some_iff.1 hk
  have hs : s.out[m]? = some (s.out[m]'(by omega)) := List.getElem?_eq_getElem _
  refine ⟨_, hs, ?_⟩
  exact hall (k, s.out[m]'(by omega)) (List.mem_of_getElem? (List.getElem?_zip_eq_some.2 ⟨hk, hs⟩))

/-- A relation that holds along two lists still holds once one entry of the second is replaced by one that
the first list's entry there is related to. -/
theorem zip_set_forall {α β : Type} {P : α → β → Prop} (ks : List α) (l : List β) (n : Nat) (x : β)
    (h : ∀ p ∈ ks.zip l, P p.1 p.2) (hx : ∀ k, ks[n]? = some k → P k x) :
    ∀ p ∈ ks.zip (l.set n x), P p.1 p.2 := by
  intro p hp
  obtain ⟨i, hi⟩ := List.mem_iff_getElem?.1 hp
  obtain ⟨h1, h2⟩ := List.getElem?_zip_eq_some.1 hi
  rw [List.getElem?_set] at h2
  split at h2
  · subst_vars
    split at h2
    · cases h2
      exact hx _ h1
    · cases h2
  · exact h p (List.mem_iff_getElem?.2 ⟨i, List.getElem?_zip_eq_some.2 ⟨h1, h2⟩⟩)

/-- Replacing one entry of a list of integers changes its sum by the difference. -/
theorem sum_set (l : List Int) (n : Nat) (x old : Int) (h : l[n]? = some old) :
    (l.set n x).sum = l.sum - old + x := by
  induction l generalizing n with
  | nil => simp at h
  | cons a l ih =>
    cases n with
    | zero =>
      simp only [List.getElem?_cons_zero, Option.some.injEq] at h
      subst h
      simp
      omega
    | succ n =>
      simp only [List.getElem?_cons_succ] at h
      simp [ih n h]
      omega

/-- A signed operand field holds a value of its width. -/
theorem sext_fitsSigned {w : Nat} (hw : 1 ≤ w) (p : Scalar) : FitsSigned w (sext w p) := by
  obtain ⟨n, rfl⟩ : ∃ n, w = n + 1 := ⟨w - 1, by omega⟩
  have h2 := BitVec.two_mul_toInt_lt (x := p.setWidth (n + 1))
  have h3 := BitVec.le_two_mul_toInt (x := p.setWidth (n + 1))
  have hp : (2 : Int) ^ (n + 1) = 2 * 2 ^ n := by ring
  unfold sext
  simp only [FitsSigned, Nat.add_sub_cancel]
  push_cast at *
  constructor <;> omega

/-- Evicting and adding keeps a channel in agreement with its configuration. -/
theorem ChannelOk.add {w : Nat} {k : SwaConfig} {c : SwaChannel} {old v : Int} (h : ChannelOk w k c)
    (hv : FitsSigned w v) (ho : c.buf[c.cur]? = some old) (hn : 1 ≤ k.n) :
    ChannelOk w k (c.add k old v) := by
  obtain ⟨h1, h2, h3, h4⟩ := h
  refine ⟨by simp [SwaChannel.add, h1], Nat.mod_lt _ hn, ?_, fun x hx => ?_⟩
  · simp only [SwaChannel.add, sum_set _ _ _ _ ho, h3]
  · rcases List.mem_or_eq_of_mem_set hx with h | h
    · exact h4 _ h
    · exact h ▸ hv

end Sys2Proof.Machine
end

