-- ==== Sys2Proof/Laws/PerInstr.lean ====
section
/-! SUPPORT. Laws stated for every instruction: its word lies in its row of the opcode map (30_encoding
R53). -/

namespace Sys2Proof.Laws.TableRow

/-- The word of the instruction meets the match and mask of its opcode's row, and carries its opcode. -/
def Statement (i : Instr) : Prop :=
  encode i &&& i.opcode.maskWord = i.opcode.matchWord ∧ (encode i).extractLsb' 0 8 = i.opcode.code

theorem encCmd (rev : Bool) : Statement (.encCmd rev) := by
  cases rev <;> unfold Statement <;> decide

theorem chksum : Statement .chksum := by unfold Statement; decide

theorem decResp : Statement .decResp := by unfold Statement; decide

theorem respAck : Statement .respAck := by unfold Statement; decide

theorem decData : Statement .decData := by unfold Statement; decide

theorem swaAdd (ch : BitVec 8) : Statement (.swaAdd ch) := by
  constructor <;> apply BitVec.eq_of_getLsbD_eq <;> intro i hi <;>
    interval_cases i <;> simp [encode, ctrlWord, Instr.opcode, Opcode.maskWord, Opcode.matchWord, Opcode.code]

theorem mapStep (pres : Bool) (ch : BitVec 8) : Statement (.mapStep pres ch) := by
  constructor <;> apply BitVec.eq_of_getLsbD_eq <;> intro i hi <;>
    interval_cases i <;> simp [encode, ctrlWord, Instr.opcode, Opcode.maskWord, Opcode.matchWord, Opcode.code]

theorem linMap : Statement .linMap := by unfold Statement; decide

end Sys2Proof.Laws.TableRow
end

