-- ==== Sys2Proof/Laws/Run.lean ====
section
/-! SUPPORT. Runs of several steps. -/

namespace Sys2Proof.Machine

@[simp] theorem stepN_zero (s : State) : stepN 0 s = .next s := rfl

theorem stepN_succ_of_next {s t : State} (n : Nat) (h : step s = .next t) : stepN (n + 1) s = stepN n t := by
  simp [stepN, h]

/-- A run in two parts. -/
theorem stepN_add {s t : State} {m : Nat} (n : Nat) (h : stepN m s = .next t) :
    stepN (m + n) s = stepN n t := by
  induction m generalizing s with
  | zero =>
    cases h
    rw [Nat.zero_add]
  | succ m ih =>
    rw [Nat.add_right_comm]
    cases hs : step s with
    | next u =>
      rw [stepN_succ_of_next _ hs] at h ⊢
      exact ih h
    | fault f => simp [stepN, hs] at h
    | refused r => simp [stepN, hs] at h

/-- `stepN` is the host's own run of the machine. -/
theorem stepN_eq_coreRun (n : Nat) (s : State) : stepN n s = Sys2Proof.core.run n s := by
  induction n generalizing s with
  | zero => rfl
  | succ n ih =>
    have hc : Sys2Proof.core.step s = step s := rfl
    cases hs : step s <;> simp [stepN, Host.Core.run, hc, hs, ih] <;> rfl

end Sys2Proof.Machine
end

