-- ==== Sys2Proof/Tests/Slice0.lean ====
section
/-! SUPPORT. Tests, each about one step at most, with the expected values of spec/95_test_vectors.md (named in
each comment) or of the tables of spec/, and the named witnesses that the hypotheses of the obligations can be
met. -/

namespace Sys2Proof.Tests

open Machine

/-! ### Small states -/

/-- The block after reset (reference configuration) with the given operand fields on the port. -/
def withOp (op : Operands) : State := { State.reset with op := op }

/-- Operand fields of which only OP.B is given. -/
def opB (b : Bytes) : Operands := { noOperands with b := b }

/-- The LINMAP operand fields. -/
def opLin (x low high bg en : Int) : Operands := (AsmLine.linMap x low high bg en).request.op

/-- The block after reset with one request offered. -/
def asked (c : Ctrl) (op : Operands) : State :=
  { State.reset with inputs := [.request { ctrl := c, op := op }] }

/-- The reference configuration with averager channel 0 of capacity `n` and precision `p`. -/
def cfgSwa (n p : Nat) : Config :=
  { Config.reference with swa := { n := n, p := p } :: List.replicate 5 { n := 4, p := 0 } }

/-- The reference configuration with the delta limit `d` on every mapper channel. -/
def cfgDelta (d : Int) : Config :=
  { Config.reference with map := List.replicate 2 { MapConfig.reference with delta := d } }

/-- 95 C4, the end state: the block after five samples on four channels, and an output of 70. -/
def warm : State :=
  { State.reset with
    swa := [{ buf := [100, 4, 0, 0], cur := 2, sum := 104 }, { buf := [1500, 0, 0, 0], cur := 1, sum := 1500 },
      { buf := [0, 0, 0, 0], cur := 0, sum := 0 }, { buf := [0, 0, 0, 0], cur := 0, sum := 0 },
      { buf := [-50, 0, 0, 0], cur := 1, sum := -50 }, { buf := [0, 0, 0, 0], cur := 1, sum := 0 }]
    out := [70, 0]
    op := { noOperands with s := 4, x := 0 } }

/-- A block that has not been reset. -/
def cold : State := State.powerUp Config.reference

/-- The block after reset under another configuration, with operand fields. -/
def under (c : Config) (op : Operands) : State := { State.afterReset c with op := op }

/-- The frame E of 95 B7. -/
def frameE : Bytes :=
  [0xAA, 0xFF, 0x03, 0x00, 0x64, 0x80, 0xDC, 0x85, 0x00, 0x00, 0x68, 0x01, 0x00, 0x00, 0x00, 0x00, 0x00, 0x00,
   0x00, 0x00, 0x32, 0x00, 0x00, 0x80, 0x10, 0x80, 0x40, 0x01, 0x55, 0xCC]

/-- The frame of 95 B4's first row. -/
def frameAck : Bytes := [0xFD, 0xFC, 0xFB, 0xFA, 0x04, 0x00, 0xFF, 0x01, 0x00, 0x00, 0x04, 0x03, 0x02, 0x01]

/-! ### Well-formedness -/

/-- R170: channel 5 is the last averager channel and channel 6 does not exist. -/
theorem test_wf_swaAdd :
    (Instr.swaAdd 5).wf Config.reference = true ∧ (Instr.swaAdd 6).wf Config.reference = false := by decide

/-- R170: channel 1 is the last mapper channel and channel 2 does not exist. -/
theorem test_wf_mapStep :
    (Instr.mapStep true 1).wf Config.reference = true ∧ (Instr.mapStep true 2).wf Config.reference = false := by
  decide

/-- 95, "configuration used by the vectors": every value satisfies R8. -/
theorem test_reference_legal : Config.reference.Legal := by decide

/-- R8: BUF_MAX >= 30. -/
theorem test_legal_bufMax : ¬ ({ Config.reference with bufMax := 29 } : Config).Legal := by decide

/-- R8: 2 <= W_S <= 64. -/
theorem test_legal_wS :
    ∀ w ∈ [1, 65], ¬ ({ Config.reference with wS := w } : Config).Legal := by decide

/-- R8: 2 <= W_M <= 64. -/
theorem test_legal_wM :
    ∀ w ∈ [1, 65], ¬ ({ Config.reference with wM := w } : Config).Legal := by decide

/-- R8: 1 <= NSWA and 1 <= NMAP. -/
theorem test_legal_noChannels :
    ∀ c ∈ [{ Config.reference with swa := [] }, { Config.reference with map := [] }], ¬ c.Legal := by decide

/-- R8: NSWA <= 256. -/
theorem test_legal_nswa :
    ¬ ({ Config.reference with swa := List.replicate 257 { n := 4, p := 0 } } : Config).Legal :=
  fun h => absurd h.2.2.2.1.2 (by rw [Config.nswa, List.length_replicate]; decide)

/-- R8: NMAP <= 256. -/
theorem test_legal_nmap :
    ¬ ({ Config.reference with map := List.replicate 257 MapConfig.reference } : Config).Legal :=
  fun h => absurd h.2.2.2.2.1.2 (by rw [Config.nmap, List.length_replicate]; decide)

/-- R8: SWA_N[c] >= 1. -/
theorem test_legal_capacity : ¬ (cfgSwa 0 0).Legal := by decide

/-- R8: the mapper's input range is not empty, and its values are ordered and fit in W_M bits. -/
theorem test_legal_mapper :
    ∀ k ∈ [{ MapConfig.reference with inMin := 1000 }, { MapConfig.reference with outMin := 101 },
      { MapConfig.reference with rest := 101 }, { MapConfig.reference with init := -1 },
      { MapConfig.reference with delta := -1 }, { MapConfig.reference with inMax := 2 ^ 31 }],
      ¬ k.Legal 32 := by decide

/-! ### Decoding -/

/-- R53, the bit patterns of the command codec, with REV = 0 and REV = 1. -/
theorem test_decode_codec :
    decodeCtrl 0b00000000000000000000000000000001#32 = .ok (.encCmd false) ∧
    decodeCtrl 0b00000000000000010000000000000001#32 = .ok (.encCmd true) ∧
    decodeCtrl 0b00000000000000000000000000000010#32 = .ok .chksum ∧
    decodeCtrl 0b00000000000000000000000000000011#32 = .ok .decResp ∧
    decodeCtrl 0b00000000000000000000000000000100#32 = .ok .respAck := by decide

/-- R53, the bit pattern of the data-frame decoder. -/
theorem test_decode_dataFrame : decodeCtrl 0b00000000000000000000000000000101#32 = .ok .decData := by decide

/-- R53, the bit pattern of the averager, with CH = 0, 5 and 255. -/
theorem test_decode_averager :
    decodeCtrl 0b00000000000000000000000000010000#32 = .ok (.swaAdd 0) ∧
    decodeCtrl 0b00000000000000000000010100010000#32 = .ok (.swaAdd 5) ∧
    decodeCtrl 0b00000000000000001111111100010000#32 = .ok (.swaAdd 255) := by decide

/-- R53, the bit patterns of the mapper, with PRES and CH. -/
theorem test_decode_mapper :
    decodeCtrl 0b00000000000000000000000100100000#32 = .ok (.mapStep false 1) ∧
    decodeCtrl 0b00000000000000101000000000100000#32 = .ok (.mapStep true 128) ∧
    decodeCtrl 0b00000000000000000000000000100001#32 = .ok .linMap := by decide

/-- 95 B1: words with no assigned opcode. -/
theorem test_decode_illegal :
    decodeCtrl 0x00000000#32 = .error .illegalOp ∧ decodeCtrl 0x00000006#32 = .error .illegalOp ∧
    decodeCtrl 0x000000FF#32 = .error .illegalOp ∧ decodeCtrl 0x80000006#32 = .error .illegalOp := by decide

/-- 95 B1: words with a reserved or unused bit set. -/
theorem test_decode_reserved :
    decodeCtrl 0x00040002#32 = .error .reserved ∧ decodeCtrl 0x00010002#32 = .error .reserved ∧
    decodeCtrl 0x00000101#32 = .error .reserved ∧ decodeCtrl 0x00020010#32 = .error .reserved ∧
    decodeCtrl 0x00010020#32 = .error .reserved ∧ decodeCtrl 0x00000121#32 = .error .reserved ∧
    decodeCtrl 0x00100610#32 = .error .reserved := by decide

/-- The table's numbering is CTRL's own. -/
theorem test_decodeTableWord :
    decodeTableWord 32 0x00020120 = some (.mapStep true 1) ∧ decodeTableWord 32 0 = none := by decide

/-- R70, R71: the text of the assembler forms. -/
theorem test_asm_text :
    (AsmLine.chksumSeed 0x91 []).text = "CHKSUM.SEED 0x91, " ++ bytesText [] ∧
    (AsmLine.encCmd true 0xA1B2 [0x01, 0x0F]).text = "ENC.CMD.REV 0xA1B2, " ++ bytesText [0x01, 0x0F] ∧
    (AsmLine.linMap 3 0 7 (-10) 0).text = "LINMAP 3, 0, 7, -10, 0" := by decide

/-! ### One step from a state with one request -/

/-- The response of the one step that answers a request. -/
def ask (c : Ctrl) (op : Operands) : Option Response := answer? (step (asked c op))

/-- 95 B1: RESERVED wins over BAD_CHANNEL, and LENGTH over ANOMALY. -/
theorem test_priority :
    ask 0x00100610#32 noOperands = some { status := .reserved } ∧
    ask 0x00000610#32 noOperands = some { status := .badChannel } ∧
    ask 0x00020220#32 noOperands = some { status := .badChannel } ∧
    ask 0x00000005#32 (opB (List.replicate 65 0)) = some { status := .length } := by decide

/-- 95 A2: the frame of ENC.CMD.REV. -/
theorem test_encCmd_rev :
    ask 0x00010001#32 { noOperands with w := 0xA1B2, b := [0x01, 0x02, 0x03] } =
      some { status := .ok, bytes := some [0xFD, 0xFC, 0xFB, 0xFA, 0x05, 0x00, 0xB2, 0xA1, 0x03, 0x02, 0x01,
        0x04, 0x03, 0x02, 0x01] } := by decide

/-- 95 B2: 52 value bytes fit in BUF_MAX = 64, with length field 36 00; 53 do not. -/
theorem test_encCmd_length :
    (((ask 0x00000001#32 { noOperands with w := 1, b := List.replicate 52 7 }).bind Response.bytes).map
      fun f => (f.length, f.getD 4 0, f.getD 5 0)) = some (64, 0x36, 0x00) ∧
    ask 0x00000001#32 { noOperands with w := 1, b := List.replicate 53 7 } = some { status := .length } := by
  decide

/-- 95 B3: the rows with a doubled address above 255, an appended checksum and an empty message. -/
theorem test_chksum :
    ask 2#32 { noOperands with a := 0x50, r := 0x01, b := [0x10, 0x20, 0x00] } =
      some { status := .ok, byte := some 0x91 } ∧
    ask 2#32 { noOperands with a := 0xFF, r := 0xFF } = some { status := .ok, byte := some 0x01 } ∧
    ask 2#32 { noOperands with a := 0x50, r := 0x01, b := [0x10, 0x20, 0x00, 0x91] } =
      some { status := .ok, byte := some 0x00 } := by decide

/-- 95 B4: the last header counts, and a wrong length field clears LENOK. -/
theorem test_decResp_last_header :
    ask 3#32 (opB [0xFD, 0xFC, 0xFB, 0xFA, 0x01, 0x02, 0xFD, 0xFC, 0xFB, 0xFA, 0x04, 0x00, 0xFF, 0x01, 0x01,
      0x00, 0x04, 0x03, 0x02, 0x01]) =
      some { status := .ok, bytes := some [0x04, 0x00, 0xFF, 0x01, 0x01, 0x00], bit := some true } ∧
    ask 3#32 (opB [0x00, 0x00, 0xFD, 0xFC, 0xFB, 0xFA, 0x04, 0x00, 0xFF, 0x01, 0x00, 0x00, 0x04, 0x03]) =
      some { status := .ok, bytes := some [0x04, 0x00, 0xFF, 0x01], bit := some false } := by decide

/-- 95 B4: the short inputs. -/
theorem test_decResp_short :
    ask 3#32 (opB [0xFD, 0xFC, 0xFB, 0xFA, 0x02, 0x00]) =
      some { status := .ok, bytes := some [], bit := some false } ∧
    ask 3#32 (opB [0xFD, 0xFC, 0xFB]) = some { status := .framing } := by decide

/-- 95 B5: either byte of the field, bytes after it, and a short payload. -/
theorem test_respAck :
    ask 4#32 (opB [0x04, 0x00, 0xFF, 0x01, 0x00, 0x00, 0x77, 0x88]) =
      some { status := .ok, bit := some true } ∧
    ask 4#32 (opB [0x04, 0x00, 0xFF, 0x01, 0x00, 0x01]) = some { status := .ok, bit := some false } ∧
    ask 4#32 (opB [0x04, 0x00, 0xFF, 0x01, 0x00]) = some { status := .ok, bit := some false } := by decide

/-- 95 B7: the frame E, behind leftover bytes, with the footer not checked. -/
theorem test_decData :
    ask 5#32 (opB ([0x11, 0x22] ++ frameE.take 28 ++ [0x00, 0x00])) =
      some { status := .ok, tgt := some [⟨0, 100, 1500, 0x0000, 0x0168⟩, ⟨2, -50, 0, 0x8010, 0x0140⟩] } ∧
    ask 5#32 (opB (frameE.drop 1)) = some { status := .anomaly } := by decide

/-- 95 B7: slot 0 decodes to x = 0 and y = 0 and is omitted although its speed is not 0; both polarities. -/
theorem test_decData_polarity :
    (∀ p ∈ [(true, (-5 : Int)), (false, 5)],
      answer? (exec .decData (under { Config.reference with osignHighPos := p.1 }
        (opB ([0xAA, 0xFF, 0x03, 0x00, 0x00, 0x80, 0x00, 0x00, 0x34, 0x12, 0x00, 0x00] ++
          [0x00, 0x00, 0x05, 0x00, 0x00, 0x00, 0x00, 0x00] ++
          [0x05, 0x00, 0x00, 0x00, 0x00, 0x00, 0x00, 0x00, 0x55, 0xCC])))) =
        some { status := .ok, tgt := some [⟨1, 0, p.2, 0, 0⟩, ⟨2, p.2, 0, 0, 0⟩] }) := by decide

/-- 95 B6: the raw values at the ends. -/
theorem test_osign :
    osign true 0x8064 = 100 ∧ osign false 0x8064 = -100 ∧ osign true 0x7FFF = -32767 ∧
    osign true 0xFFFF = 32767 ∧ osign false 0xFFFF = -32767 ∧ osign true 0x8000 = 0 := by decide

/-- 95 C4, steps 1 to 7: SWA.ADD 0, 4 after the sample 100 answers 26 (104/4), and the window moves on. -/
theorem test_swaAdd :
    answer? (exec (.swaAdd 0) { warm with
      swa := warm.swa.set 0 { buf := [100, 0, 0, 0], cur := 1, sum := 100 } }) =
      some { status := .ok, val := some 26 } ∧
    (nextState? (exec (.swaAdd 0) { warm with
      swa := warm.swa.set 0 { buf := [100, 0, 0, 0], cur := 1, sum := 100 } })).map State.swa =
      some warm.swa := by decide

/-- 95 B8, rows 10 and 5 (ties to even, an extreme sample, the cursor wrapping). -/
theorem test_swaAdd_tie :
    answer? (exec (.swaAdd 0) { under (cfgSwa 2 0) { noOperands with s := 32767 } with
      swa := [{ buf := [-32768, -32768], cur := 0, sum := -65536 }] }) =
      some { status := .ok, val := some 0 } ∧
    (nextState? (exec (.swaAdd 0) { under (cfgSwa 2 0) { noOperands with s := 0xFFFF } with
      swa := [{ buf := [-3, 0], cur := 1, sum := -3 }] })).map (fun t => (t.swa, t.responses)) =
      some ([{ buf := [-3, -1], cur := 0, sum := -4 }], [{ status := .ok, val := some (-2) }]) := by decide

/-- 00_scope R11 and 95 B8: ties go to the even integer, on both signs. -/
theorem test_rne :
    rne 5 2 = 2 ∧ rne 3 2 = 2 ∧ rne 1 2 = 0 ∧ rne (-3) 2 = -2 ∧ rne (-1) 2 = 0 ∧ rne 2 3 = 1 ∧ rne 100 40 = 2 := by
  decide

/-- 95 A9 and B10: one step toward 100 under the limit 30, and the landing. -/
theorem test_mapStep :
    (nextState? (exec (.mapStep true 0) (under (cfgDelta 30) noOperands))).map State.out = some [30, 0] ∧
    (nextState? (exec (.mapStep true 0) { under (cfgDelta 10) noOperands with out := [95, 0] })).map State.out =
      some [100, 0] := by decide

/-- 95 B10: back to rest with OP.X not read, and a limit of 0. -/
theorem test_mapStep_rest :
    answer? (exec (.mapStep false 0) { under (cfgDelta 30) { noOperands with x := 12345 } with out := [70, 0] }) =
      some { status := .ok, val := some 40 } ∧
    answer? (exec (.mapStep true 0) { under (cfgDelta 0) noOperands with out := [50, 0] }) =
      some { status := .ok, val := some 50 } := by decide

/-- 95 A10: the inverted targets, rounded toward the value at inMin. -/
theorem test_mapTarget :
    mapTarget MapConfig.reference true (-5) = 100 ∧ mapTarget MapConfig.reference true 1 = 100 ∧
    mapTarget MapConfig.reference true 333 = 67 ∧ mapTarget MapConfig.reference true 999 = 1 ∧
    mapTarget MapConfig.reference true 2000 = 0 := by decide

/-- 95 B9: truncation toward zero on both signs. -/
theorem test_linMap :
    ask 0x21#32 (opLin 3 0 7 10 0) = some { status := .ok, val := some 6 } ∧
    ask 0x21#32 (opLin 3 0 7 0 (-10)) = some { status := .ok, val := some (-4) } ∧
    ask 0x21#32 (opLin (-3) (-7) 0 0 7) = some { status := .ok, val := some 4 } := by decide

/-- 95 B9: the degenerate range, the clamp, and RANGE. -/
theorem test_linMap_range :
    ask 0x21#32 (opLin 4 4 4 7 9) = some { status := .ok, val := some 7 } ∧
    ask 0x21#32 (opLin 11 0 10 0 100) = some { status := .ok, val := some 100 } ∧
    ask 0x21#32 (opLin 0 5 1 0 100) = some { status := .range } := by decide

/-- 95 B11: a reset gives S.OUT its initial value again, and brings a cold block to life. -/
theorem test_reset :
    (nextState? (step { warm with inputs := [.reset] })).map State.out = some [0, 0] ∧
    (nextState? (step { cold with inputs := [.reset] })).map (fun t => (t.live, t.swa.length)) =
      some (true, 6) := by decide

/-- 95 B11: a request before the first reset is stuck. -/
theorem test_stuck :
    step { cold with inputs := [.request (AsmLine.chksum 0 0 []).request] } = .fault .stuckBeforeReset := by rfl

/-- The next step after `withFetchWord` runs the word, from reset. -/
theorem test_withFetchWord :
    answer? (step (State.reset.withFetchWord 32 0x00020120)) = some { status := .ok, val := some 30 } := by decide

/-! ### The hypotheses of the obligations can be met -/

theorem next_of_isSome {o : Result} (h : (nextState? o).isSome = true) : ∃ t, o = .next t := by
  cases o with
  | next t => exact ⟨t, rfl⟩
  | fault f => cases h
  | refused r => cases h

/-- CMD_HDR occurs nowhere after `h` once it does not at the places that are left. -/
theorem not_occursAt_after (b : Bytes) (h : Nat)
    (hd : ∀ i ∈ List.range b.length, h < i → ¬ OccursAt [0xFD#8, 0xFC#8, 0xFB#8, 0xFA#8] b i) :
    ∀ i, h < i → ¬ OccursAt [0xFD#8, 0xFC#8, 0xFB#8, 0xFA#8] b i := by
  intro i hi ho
  by_cases hl : i < b.length
  · exact hd i (List.mem_range.2 hl) hi ho
  · have hlen := congrArg List.length ho
    simp at hlen
    omega

/-- `warm` with one request offered. -/
def warmAsked (c : Ctrl) (op : Operands) : State :=
  { warm with inputs := [.request { ctrl := c, op := op }] }

theorem warm_inv : warm.Inv := ⟨by decide, by decide, by decide⟩

theorem warmAsked_inv (c : Ctrl) (op : Operands) : (warmAsked c op).Inv := warm_inv

theorem cold_inv : cold.Inv := ⟨by decide, by decide, by decide⟩

theorem reset_ready : State.reset.Ready := ⟨by decide, rfl⟩

theorem warm_ready : warm.Ready := ⟨by decide, rfl⟩

theorem witness_DecodeThenEncode : decodeCtrl 0x0002FF20#32 = .ok (.mapStep true 255) := by decide

/-- Requests with the given control words. -/
def requests (cs : List Ctrl) : List Request := cs.map fun c => { ctrl := c, op := noOperands }

/-- The ends of each of the four unassigned ranges. -/
theorem witness_UnassignedOpcodesAreIllegal :
    ∀ r ∈ requests [0x00, 0x06, 0x0F, 0x11, 0x1F, 0x22, 0x800000FF],
      (asked r.ctrl r.op).Ready ∧ (asked r.ctrl r.op).inputs = .request r :: [] ∧
      ((r.ctrl.extractLsb' 0 8).toNat = 0x00 ∨
        (0x06 ≤ (r.ctrl.extractLsb' 0 8).toNat ∧ (r.ctrl.extractLsb' 0 8).toNat ≤ 0x0F) ∨
        (0x11 ≤ (r.ctrl.extractLsb' 0 8).toNat ∧ (r.ctrl.extractLsb' 0 8).toNat ≤ 0x1F) ∨
        0x22 ≤ (r.ctrl.extractLsb' 0 8).toNat) :=
  fun r hr => ⟨reset_ready, rfl, by revert r; decide⟩

/-- Words for each of the four causes: bits 18 and 31, CH, REV, PRES. -/
theorem witness_ReservedBitsAreRefused :
    ∀ r ∈ requests [0x00040002, 0x80000010, 0x00000101, 0x00010020, 0x00020010],
      (asked r.ctrl r.op).Ready ∧ (asked r.ctrl r.op).inputs = .request r :: [] ∧
      r.ctrl.extractLsb' 0 8 ∈ assignedOpcodes ∧
      (r.ctrl.extractLsb' 18 14 ≠ 0#14 ∨
        (r.ctrl.extractLsb' 8 8 ≠ 0#8 ∧ r.ctrl.extractLsb' 0 8 ≠ 0x10#8 ∧ r.ctrl.extractLsb' 0 8 ≠ 0x20#8) ∨
        (r.ctrl.getLsbD 16 = true ∧ r.ctrl.extractLsb' 0 8 ≠ 0x01#8) ∨
        (r.ctrl.getLsbD 17 = true ∧ r.ctrl.extractLsb' 0 8 ≠ 0x20#8)) :=
  fun r hr => ⟨reset_ready, rfl, by revert r; decide, by revert r; decide⟩

/-- The ends of the 16-bit and 64-bit ranges. -/
theorem witness_AssemblerFormsGiveTheirWords :
    ∀ p ∈ [(16, (-32768 : Int)), (16, 32767), (64, -9223372036854775808), (1, -1)],
      1 ≤ p.1 ∧ p.1 ≤ 64 ∧ FitsSigned p.1 p.2 := by decide

theorem witness_StepRunsTheDecodedRequest :
    (asked 0x00020020#32 noOperands).cfg.Legal ∧
    (asked 0x00020020#32 noOperands).inputs = .request { ctrl := 0x00020020#32, op := noOperands } :: [] ∧
    decodeCtrl 0x00020020#32 = .ok (.mapStep true 0) := ⟨by decide, rfl, by decide⟩

/-- 52 and 53 value bytes under BUF_MAX = 64, and 65533 and 65534 under a BUF_MAX that holds both frames. -/
theorem witness_EncCmdBuildsTheFrame :
    (withOp (opB (List.replicate 53 7))).Ready ∧ Config.reference.bufMax < 12 + (List.replicate 53 (7 : Byte)).length ∧
    (withOp (opB (List.replicate 52 7))).Ready ∧ 12 + (List.replicate 52 (7 : Byte)).length ≤ Config.reference.bufMax ∧
    (under { Config.reference with bufMax := 70000 } (opB (List.replicate 65534 7))).Ready ∧
    65533 < (List.replicate 65534 (7 : Byte)).length ∧
    (under { Config.reference with bufMax := 70000 } (opB (List.replicate 65533 7))).Ready ∧
    (List.replicate 65533 (7 : Byte)).length ≤ 65533 ∧ 12 + (List.replicate 65533 (7 : Byte)).length ≤ 70000 := by
  have hc : ({ Config.reference with bufMax := 70000 } : Config).Legal := by decide
  simp only [List.length_replicate]
  exact ⟨reset_ready, by decide, reset_ready, by decide, ⟨hc, rfl⟩, by decide, ⟨hc, rfl⟩, by decide, by decide⟩

/-- A message one byte too long and one of BUF_MAX bytes. -/
theorem witness_ChksumFoldsTheMessage :
    (withOp (opB (List.replicate 65 7))).Ready ∧ Config.reference.bufMax < (List.replicate 65 (7 : Byte)).length ∧
    (withOp (opB (List.replicate 64 7))).Ready ∧ (List.replicate 64 (7 : Byte)).length ≤ Config.reference.bufMax :=
  ⟨reset_ready, by decide, reset_ready, by decide⟩

/-- A message that its checksum fills up to BUF_MAX, and its reverse. -/
theorem witness_AppendedChecksumFoldsToZero :
    (withOp (opB ([9, 8] ++ List.replicate 61 7))).Ready ∧
    (withOp (opB ([9, 8] ++ List.replicate 61 7))).op.b.length + 1 ≤ Config.reference.bufMax ∧
    (List.Perm (withOp (opB ([9, 8] ++ List.replicate 61 7))).op.b.reverse
      (withOp (opB ([9, 8] ++ List.replicate 61 7))).op.b) :=
  ⟨reset_ready, by decide, List.reverse_perm _⟩

/-- One chunk for each of the three clauses; the last with two headers, 95 B4. -/
theorem witness_DecRespCutsAfterTheLastHeader :
    (withOp (opB (List.replicate 65 0))).Ready ∧ Config.reference.bufMax < (List.replicate 65 (0 : Byte)).length ∧
    (withOp (opB [0x04, 0x03, 0x02, 0x01])).Ready ∧
    (∀ i, ¬ OccursAt [0xFD#8, 0xFC#8, 0xFB#8, 0xFA#8] [0x04, 0x03, 0x02, 0x01] i) ∧
    (withOp (opB ([0xFD, 0xFC, 0xFB, 0xFA, 0x01, 0x02] ++ frameAck))).Ready ∧
    ([0xFD, 0xFC, 0xFB, 0xFA, 0x01, 0x02] ++ frameAck).length ≤ Config.reference.bufMax ∧
    OccursAt [0xFD#8, 0xFC#8, 0xFB#8, 0xFA#8] ([0xFD, 0xFC, 0xFB, 0xFA, 0x01, 0x02] ++ frameAck) 6 ∧
    (∀ i, 6 < i →
      ¬ OccursAt [0xFD#8, 0xFC#8, 0xFB#8, 0xFA#8] ([0xFD, 0xFC, 0xFB, 0xFA, 0x01, 0x02] ++ frameAck) i) := by
  refine ⟨reset_ready, by decide, reset_ready, fun i => ?_, reset_ready, by decide, by decide,
    not_occursAt_after _ 6 (by decide)⟩
  cases i with
  | zero => decide
  | succ i => exact not_occursAt_after _ 0 (by decide) (i + 1) (by omega)

theorem witness_RespAckTestsTheField :
    (withOp (opB (List.replicate 65 0))).Ready ∧ Config.reference.bufMax < (List.replicate 65 (0 : Byte)).length ∧
    (withOp (opB (List.replicate 64 0))).Ready ∧ (List.replicate 64 (0 : Byte)).length ≤ Config.reference.bufMax :=
  ⟨reset_ready, by decide, reset_ready, by decide⟩

/-- 95 A5: the word 0x00FF with the value 01 00. -/
theorem witness_CommandRoundTrip :
    (withOp { noOperands with w := 0x00FF, b := [0x01, 0x00] }).Ready ∧
    12 + (withOp { noOperands with w := 0x00FF, b := [0x01, 0x00] }).op.b.length ≤ Config.reference.bufMax ∧
    answer? (exec (.encCmd false) (withOp { noOperands with w := 0x00FF, b := [0x01, 0x00] })) =
      some { status := .ok, bytes := some (commandFrame false 0x00FF [0x01, 0x00]) } ∧
    (∀ i, OccursAt [0xFD#8, 0xFC#8, 0xFB#8, 0xFA#8] (commandFrame false 0x00FF [0x01, 0x00]) i → i = 0) ∧
    (withOp (opB (commandFrame false 0x00FF [0x01, 0x00]))).Ready ∧
    (withOp (opB (commandFrame false 0x00FF [0x01, 0x00]))).cfg =
      (withOp { noOperands with w := 0x00FF, b := [0x01, 0x00] }).cfg := by
  refine ⟨reset_ready, by decide, by decide, fun i ho => ?_, reset_ready, rfl⟩
  by_contra hi
  exact not_occursAt_after _ 0 (by decide) i (by omega) ho

/-- The lengths 65, 29 and 30, and a wrong header. -/
theorem witness_DecDataReportsTheTargets :
    (withOp (opB (List.replicate 65 0))).Ready ∧ Config.reference.bufMax < (List.replicate 65 (0 : Byte)).length ∧
    (withOp (opB (frameE.drop 1))).Ready ∧ (frameE.drop 1).length < 30 ∧
    (withOp (opB (frameE.set 3 1))).Ready ∧
    ((frameE.set 3 1).drop ((frameE.set 3 1).length - 30)).take 4 ≠ [0xAA#8, 0xFF#8, 0x03#8, 0x00#8] ∧
    (withOp (opB frameE)).Ready ∧ frameE.length ≤ Config.reference.bufMax ∧ 30 ≤ frameE.length ∧
    (frameE.drop (frameE.length - 30)).take 4 = [0xAA#8, 0xFF#8, 0x03#8, 0x00#8] :=
  ⟨reset_ready, by decide, reset_ready, by decide, reset_ready, by decide, reset_ready, by decide, by decide,
    by decide⟩

theorem witness_OffsetSignDecode :
    0x8000 ≤ (0x8000#16).toNat ∧ 0x8000 ≤ (0xFFFF#16).toNat ∧ (0x7FFF#16).toNat < 0x8000 ∧
    (0x0000#16).toNat < 0x8000 := by decide

theorem witness_DecDataIgnoresLeftoversAndFooter :
    (withOp (opB ([0x11, 0x22] ++ frameE.take 28 ++ [0x00, 0x00]))).Ready ∧ (frameE.take 28).length = 28 ∧
    ([0x11, 0x22] : Bytes).length + 30 ≤ Config.reference.bufMax ∧
    ([] : Bytes).length + 30 ≤ Config.reference.bufMax ∧
    (withOp (opB ([] ++ frameE.take 28 ++ [0x55, 0xCC]))).op.b = frameE :=
  ⟨reset_ready, by decide, by decide, by decide, by decide⟩

/-- Channel 5 is the last one, channel 6 and channel 255 do not exist. -/
theorem witness_SwaAddUpdatesTheWindow :
    warm.Inv ∧ warm.live = true ∧ warm.cfg.swa[(5#8).toNat]? = some { n := 4, p := 0 } ∧
    warm.cfg.nswa ≤ (6#8).toNat ∧ warm.cfg.nswa ≤ (255#8).toNat :=
  ⟨warm_inv, rfl, by decide, by decide, by decide⟩

/-- A tie and a value that is not one. -/
theorem witness_RneIsNearestEven :
    (0 : Int) < 2 ∧ |2 * (rne 5 2 * 2 - 5)| = 2 ∧ |2 * (rne 4 2 * 2 - 4)| ≠ 2 := by decide

theorem witness_SwaValuesStayBounded :
    warm.Inv ∧ warm.cfg.swa[(0#8).toNat]? = some { n := 4, p := 0 } ∧
    ∃ t r q, exec (.swaAdd 0#8) warm = .next t ∧ t.responses = warm.responses ++ [r] ∧ r.val = some q := by
  obtain ⟨t, ht⟩ := next_of_isSome (o := exec (.swaAdd 0#8) warm) (by decide)
  have h : (nextState? (exec (.swaAdd 0#8) warm)).map State.responses =
    some [{ status := .ok, val := some 27 }] := by decide
  rw [ht] at h
  exact ⟨warm_inv, by decide, t, _, _, ht, Option.some.inj h, rfl⟩

/-- 95 C2: two samples for channel 4 around one for channel 0, from a block that was not reset. -/
theorem witness_AveragerMatchesTheReference :
    cold.cfg.Legal ∧ cold.cfg.swa[4]? = some { n := 4, p := 0 } ∧
    sampleOf cold.cfg 4 (AsmLine.swaAdd 4 (-50)).request = some (-50) ∧
    ({ cold with
        inputs := .reset :: (([(AsmLine.swaAdd 4 8).request, (AsmLine.swaAdd 0 100).request] ++
          [(AsmLine.swaAdd 4 (-50)).request]).map Input.request ++ []) } : State).inputs =
      .reset :: (([(AsmLine.swaAdd 4 8).request, (AsmLine.swaAdd 0 100).request] ++
          [(AsmLine.swaAdd 4 (-50)).request]).map Input.request ++ []) ∧
    samplesOf cold.cfg 4 ([(AsmLine.swaAdd 4 8).request, (AsmLine.swaAdd 0 100).request] ++
      [(AsmLine.swaAdd 4 (-50)).request]) = [8, -50] :=
  ⟨by decide, by decide, by decide, rfl, by decide⟩

theorem witness_SwaAddFrame :
    (∃ t, exec (.swaAdd 0) warm = .next t) ∧ warm.swa[(0#8).toNat]? = some ⟨[100, 4, 0, 0], 2, 104⟩ ∧ 1 ≠ 2 :=
  ⟨next_of_isSome (by decide), by decide, by decide⟩

/-- low > high by one, low = high, and low < high at the ends of the 32-bit range. -/
theorem witness_LinMapRescales :
    (withOp (opLin 0 6 5 0 100)).Ready ∧
    sext 32 (opLin 0 6 5 0 100).h < sext 32 (opLin 0 6 5 0 100).l ∧
    sext 32 (opLin 0 5 5 0 100).l ≤ sext 32 (opLin 0 5 5 0 100).h ∧
    sext 32 (opLin 0 (-2147483648) 2147483647 0 1).l < sext 32 (opLin 0 (-2147483648) 2147483647 0 1).h :=
  ⟨reset_ready, by decide, by decide, by decide⟩

/-- Inputs at both ends of the range. -/
theorem witness_LinMapStaysBetweenItsEnds :
    (withOp (opLin 0 0 7 10 0)).Ready ∧ sext 32 (opLin 0 0 7 10 0).l ≤ sext 32 (opLin 0 0 7 10 0).h ∧
    sext 32 (opLin 0 0 7 10 0).x ≤ sext 32 (opLin 0 0 7 10 0).l ∧
    sext 32 (opLin 7 0 7 10 0).l < sext 32 (opLin 7 0 7 10 0).h ∧
    sext 32 (opLin 7 0 7 10 0).h ≤ sext 32 (opLin 7 0 7 10 0).x :=
  ⟨reset_ready, by decide, by decide, by decide, by decide⟩

/-- Channel 1 is the last one, channel 2 and channel 255 do not exist. -/
theorem witness_MapStepMovesTowardTheTarget :
    warm.Inv ∧ warm.live = true ∧ warm.cfg.map[(1#8).toNat]? = some MapConfig.reference ∧
    warm.cfg.nmap ≤ (2#8).toNat ∧ warm.cfg.nmap ≤ (255#8).toNat :=
  ⟨warm_inv, rfl, by decide, by decide, by decide⟩

/-- From 70 to the target 100 with the limit 30: the last step that lands. -/
theorem witness_MapStepIsRateLimited :
    warm.Inv ∧ warm.live = true ∧ warm.cfg.map[(0#8).toNat]? = some MapConfig.reference ∧
    warm.out[(0#8).toNat]? = some 70 ∧ mapTarget MapConfig.reference true (sext warm.cfg.wM warm.op.x) = 100 ∧
    |(100 : Int) - 70| ≤ MapConfig.reference.delta :=
  ⟨warm_inv, rfl, by decide, by decide, by decide, by decide⟩

/-- The frozen channel. -/
theorem witness_MapStepIsRateLimited_frozen :
    (State.afterReset (cfgDelta 0)).Inv ∧ (State.afterReset (cfgDelta 0)).live = true ∧
    (State.afterReset (cfgDelta 0)).out[(0#8).toNat]? = some 0 ∧ (cfgDelta 0).map[(0#8).toNat]?.map MapConfig.delta =
      some 0 :=
  ⟨⟨by decide, by decide, by decide⟩, rfl, by decide, by decide⟩

/-- 95 A9: four steps toward 100, with inputs 0 and 1 that map to the same target. -/
theorem witness_MapperConverges :
    ({ warm with
        inputs := [noOperands, { noOperands with x := 1 }].map
          (fun op => Input.request { ctrl := encode (.mapStep true 1), op := op }) ++ [] } : State).Inv ∧
    warm.live = true ∧ warm.cfg.map[(1#8).toNat]? = some MapConfig.reference ∧ warm.out[(1#8).toNat]? = some 0 ∧
    0 < MapConfig.reference.delta ∧
    (∀ op ∈ [noOperands, { noOperands with x := 1 }],
      mapTarget MapConfig.reference true (sext warm.cfg.wM op.x) = 100) :=
  ⟨warm_inv, rfl, by decide, by decide, by decide, by decide⟩

theorem witness_MapStepFrame : ∃ t, exec (.mapStep true 0) warm = .next t := next_of_isSome (by decide)

/-- A next state for one instruction of each shape, answering OK and not OK. -/
theorem witness_StatusesByInstruction :
    ∀ i ∈ [Instr.encCmd true, .chksum, .decResp, .respAck, .decData, .swaAdd 0, .swaAdd 6, .mapStep true 0,
      .mapStep false 2, .linMap], ∃ t, exec i warm = .next t :=
  fun i hi => next_of_isSome (by revert i; decide)

/-- A request with two causes: the first of the two is reported. -/
theorem witness_StatusIsTheFirstCause :
    (warmAsked 0x00100610#32 noOperands).Inv ∧ (warmAsked 0x00100610#32 noOperands).live = true ∧
    (warmAsked 0x00100610#32 noOperands).inputs = .request { ctrl := 0x00100610#32, op := noOperands } :: [] ∧
    causeHolds Config.reference { ctrl := 0x00100610#32, op := noOperands } .reserved = true ∧
    causeHolds Config.reference { ctrl := 0x00100610#32, op := noOperands } .badChannel = true :=
  ⟨warm_inv, rfl, rfl, by decide, by decide⟩

/-- Every status but OK, each by a request after reset. -/
theorem witness_FailedRequestsWriteNothing :
    ∀ p ∈ [(0x03#32, noOperands, Status.framing), (0x05#32, noOperands, .anomaly),
        (0x06#32, noOperands, .illegalOp), (0x00040010#32, noOperands, .reserved),
        (0x0610#32, noOperands, .badChannel), (0x02#32, opB (List.replicate 65 0), .length),
        (0x21#32, opLin 0 5 1 0 100, .range)],
      (∃ t, step (warmAsked p.1 p.2.1) = .next t) ∧
      (answer? (step (warmAsked p.1 p.2.1))).map Response.status = some p.2.2 ∧ p.2.2 ≠ .ok :=
  fun p hp => ⟨next_of_isSome (by revert p; decide), by revert p; decide, by revert p; decide⟩

/-- An OK response and a BAD_CHANNEL response. -/
theorem witness_ResultFieldsByInstruction :
    warm.Inv ∧ (∃ t, exec (.swaAdd 0) warm = .next t) ∧
    (answer? (exec (.swaAdd 0) warm)).map Response.status = some .ok ∧
    (∃ t, exec (.swaAdd 6) warm = .next t) ∧
    (answer? (exec (.swaAdd 6) warm)).map Response.status = some .badChannel :=
  ⟨warm_inv, next_of_isSome (by decide), by decide, next_of_isSome (by decide), by decide⟩

/-- A live state and a state before the first reset. -/
theorem witness_EveryStepKeepsTheInvariant :
    (warmAsked 0x10#32 noOperands).Inv ∧ (∃ t, step (warmAsked 0x10#32 noOperands) = .next t) ∧
    ({ cold with inputs := [.reset] } : State).Inv ∧ (∃ t, step { cold with inputs := [.reset] } = .next t) :=
  ⟨warm_inv, next_of_isSome (by decide), cold_inv, next_of_isSome (by decide)⟩

theorem witness_BootSequence :
    (cfgSwa 1 2).Legal ∧ ¬ ({ Config.reference with bufMax := 29 } : Config).Legal := ⟨by decide, by decide⟩

theorem witness_ResetWritesEveryField :
    ({ warm with inputs := [.reset, .reset] } : State).cfg.Legal ∧
    ({ warm with inputs := [.reset, .reset] } : State).inputs = .reset :: [.reset] := ⟨by decide, rfl⟩

theorem witness_ResetAbandonsTheRequest :
    ({ warm with inputs := [.resetDuring (AsmLine.swaAdd 0 7).request] } : State).cfg.Legal ∧
    ({ warm with inputs := [.resetDuring (AsmLine.swaAdd 0 7).request] } : State).inputs =
      .resetDuring (AsmLine.swaAdd 0 7).request :: [] := ⟨by decide, rfl⟩

theorem witness_RequestsBeforeResetAreStuck :
    ({ cold with inputs := [.request (AsmLine.chksum 0 0 []).request] } : State).cfg.Legal ∧
    ({ cold with inputs := [.request (AsmLine.chksum 0 0 []).request] } : State).live = false ∧
    ({ cold with inputs := [.request (AsmLine.chksum 0 0 []).request] } : State).inputs =
      .request (AsmLine.chksum 0 0 []).request :: [] := ⟨by decide, rfl, rfl⟩

theorem witness_IllegalConfigurationsAreRefused : ¬ (State.afterReset (cfgSwa 0 0)).cfg.Legal := by decide

theorem witness_EveryRequestIsAnsweredOnce :
    (warmAsked 0xFFFFFFFF#32 noOperands).Inv ∧ (warmAsked 0xFFFFFFFF#32 noOperands).live = true ∧
    (warmAsked 0xFFFFFFFF#32 noOperands).inputs = .request { ctrl := 0xFFFFFFFF#32, op := noOperands } :: [] :=
  ⟨warm_inv, rfl, rfl⟩

theorem witness_RequestsRunInOrder :
    ({ warm with
        inputs := [(AsmLine.swaAdd 0 7).request, (AsmLine.mapIdle 0).request].map Input.request ++ [.reset] } :
      State).Inv ∧
    warm.live = true ∧
    [(AsmLine.swaAdd 0 7).request, (AsmLine.mapIdle 0).request][1]? = some (AsmLine.mapIdle 0).request :=
  ⟨warm_inv, rfl, rfl⟩

theorem witness_StatelessInstructionsFrame :
    Stateless .linMap = true ∧ ∃ t, exec .linMap (withOp (opLin 3 0 7 10 0)) = .next t :=
  ⟨rfl, next_of_isSome (by decide)⟩

theorem witness_ConfigurationAndLiveAreNotWritten :
    (∃ t, step (warmAsked 0x10#32 noOperands) = .next t) ∧ (warmAsked 0x10#32 noOperands).live = true ∧
    ∃ t, exec (.mapStep false 1) warm = .next t :=
  ⟨next_of_isSome (by decide), rfl, next_of_isSome (by decide)⟩

/-- MAP.STEP without PRES agrees with itself whatever OP.X is, and reads OP.X with PRES. -/
theorem witness_UnreadOperandsDoNotMatter :
    AgreeOn (.mapStep false 0) noOperands { noOperands with x := 12345 } ∧
    AgreeOn (.mapStep true 0) noOperands { noOperands with s := 12345 } ∧
    AgreeOn .chksum noOperands { noOperands with w := 0xFFFF } :=
  ⟨fun h => absurd h (by decide), fun _ => rfl, ⟨rfl, rfl, rfl⟩⟩

theorem witness_NothingElsePersists :
    (warmAsked 0x10#32 noOperands).inputs = .request { ctrl := 0x10#32, op := noOperands } :: [] ∧
    ({ warmAsked 0x10#32 noOperands with
      responses := [{ status := .framing }], op := opB [1] } : State).swa = (warmAsked 0x10#32 noOperands).swa ∧
    ∃ t, step (warmAsked 0x10#32 noOperands) = .next t :=
  ⟨rfl, rfl, next_of_isSome (by decide)⟩

theorem witness_IdleBlockHoldsItsState : warm.cfg.Legal ∧ warm.inputs = [] := ⟨by decide, rfl⟩

end Sys2Proof.Tests
end

section
/-! PROOFS. The statements of 00_scope: what RNE is (R11), and that an illegal configuration is refused
(R8). -/

namespace Sys2Proof.Machine

/-- Rounding down errs by the remainder. -/
theorem abs_floor_error {a b f r : Int} (ha : a = f * b + r) (hr : 0 ≤ r) :
    |2 * (f * b - a)| = 2 * r := by
  have herr : 2 * (f * b - a) = -(2 * r) := by omega
  rw [herr, abs_neg, abs_of_nonneg (by omega)]

/-- Rounding up errs by what the remainder lacks of the divisor. -/
theorem abs_ceil_error {a b f r : Int} (ha : a = f * b + r) (hr : r < b) :
    |2 * ((f + 1) * b - a)| = 2 * (b - r) := by
  have herr : 2 * ((f + 1) * b - a) = 2 * (b - r) := by rw [ha]; ring
  rw [herr, abs_of_nonneg (by omega)]

theorem step_of_illegal {s : State} (hc : ¬ s.cfg.Legal) : step s = .refused .illegalConfiguration := by
  rw [step, runNext, if_neg hc]

theorem exec_of_illegal {s : State} (i : Instr) (hc : ¬ s.cfg.Legal) :
    exec i s = .refused .illegalConfiguration := by
  obtain ⟨body, hbody⟩ := exec_eq_perform i s
  rw [hbody, perform_of_illegal hc]

/-- Settles O19, by the three cases of RNE: the error is twice the remainder when it rounds down and twice
the rest when it rounds up, and only a tie makes either of them the divisor. -/
theorem rneIsNearestEven : Obligations.RneIsNearestEven := by
  intro a b hb
  obtain ⟨f, r, ha, hr, hrb, hcases⟩ := rne_cases a b hb
  have hdown := abs_floor_error ha hr
  have hup := abs_ceil_error ha hrb
  obtain ⟨hlt, hq⟩ | ⟨hgt, hq⟩ | ⟨htie, heven, hq⟩ | ⟨htie, hodd, hq⟩ := hcases <;> rw [hq]
  · rw [hdown]
    exact ⟨by omega, fun h => by omega⟩
  · rw [hup]
    exact ⟨by omega, fun h => by omega⟩
  · rw [hdown]
    exact ⟨by omega, fun _ => heven⟩
  · rw [hup]
    exact ⟨by omega, fun _ => by omega⟩

/-- Settles O40: a step asks for a legal configuration before it looks at the host's actions, and every
instruction performs its body only under one. -/
theorem illegalConfigurationsAreRefused : Obligations.IllegalConfigurationsAreRefused :=
  fun _ hc => ⟨step_of_illegal hc, fun i => exec_of_illegal i hc⟩

end Sys2Proof.Machine
end

section
/-! PROOFS. The statements of 10_state: the invariant of the channel state and that every step keeps it (R25
to R30, R32), that nothing writes the configuration or clears S.LIVE (R24, R30), and that only the averager and
mapper state carries over from one request to the next (R20, R21, R23). -/

namespace Sys2Proof.Machine

/-! ### What a performed request can do -/

/-- The effects a performed request can have: it appends its response, and before that it may have updated the
window of one averager channel (42_window_averager R130) or moved the output of one mapper channel (43_mapper
R152). -/
inductive RequestEffect (s : State) : State → Prop where
  | replied (q : Response) : RequestEffect s (s.reply q)
  | averaged {c : Nat} {k : SwaConfig} {ch : SwaChannel} {old : Int} (q : Response)
      (hk : s.cfg.swa[c]? = some k) (hch : s.swa[c]? = some ch) (hold : ch.buf[ch.cur]? = some old) :
      RequestEffect s ((s.setSwa c (ch.add k old s.opS)).reply q)
  | mapped {m : Nat} {k : MapConfig} {o : Int} (pres : Bool) (q : Response)
      (hk : s.cfg.map[m]? = some k) (ho : s.out[m]? = some o) :
      RequestEffect s ((s.setOut m (deltaStep k.delta (mapTarget k pres s.opX) o)).reply q)

theorem exec_effect {i : Instr} {s t : State} (h : exec i s = .next t) : RequestEffect s t := by
  cases i with
  | swaAdd ch =>
    obtain ⟨-, -, ⟨-, rfl⟩ | ⟨k, c, old, hk, hc, hold, rfl⟩⟩ := execSwaAdd_next h
    · exact .replied _
    · exact .averaged _ hk hc hold
  | mapStep pres ch =>
    obtain ⟨-, -, ⟨-, rfl⟩ | ⟨k, o, o2, hk, ho, rfl, rfl⟩⟩ := execMapStep_next h
    · exact .replied _
    · exact .mapped pres _ hk ho
  | _ =>
    obtain ⟨-, -, rfl⟩ := exec_stateless_next rfl h
    exact .replied _

theorem runCtrl_effect {c : Ctrl} {s t : State} (h : runCtrl c s = .next t) : RequestEffect s t := by
  obtain ⟨i, -, hi⟩ | ⟨st, -, -, -, rfl⟩ := runCtrl_next h
  · exact exec_effect hi
  · exact .replied _

theorem runCtrl_ready {c : Ctrl} {s t : State} (h : runCtrl c s = .next t) : s.Ready := by
  obtain ⟨i, -, hi⟩ | ⟨st, -, hc, hl, -⟩ := runCtrl_next h
  · obtain ⟨body, hbody⟩ := exec_eq_perform i s
    obtain ⟨hc, hl, -⟩ := perform_next (hbody ▸ hi)
    exact ⟨hc, hl⟩
  · exact ⟨hc, hl⟩

theorem RequestEffect.cfg_eq {s t : State} (h : RequestEffect s t) : t.cfg = s.cfg := by
  cases h <;> rfl

theorem RequestEffect.live_eq {s t : State} (h : RequestEffect s t) : t.live = s.live := by
  cases h <;> rfl

/-- Settles O44: a request's effect is on one channel and the responses, and reset keeps the configuration and
sets S.LIVE. -/
theorem configurationAndLiveAreNotWritten : Obligations.ConfigurationAndLiveAreNotWritten := by
  refine ⟨fun s t h => ?_, fun i s t h => ⟨(exec_effect h).cfg_eq, (exec_effect h).live_eq⟩⟩
  obtain ⟨-, ⟨-, rfl⟩ | ⟨rest, -, rfl⟩ | ⟨r, rest, -, rfl⟩ | ⟨r, rest, -, hr⟩⟩ := step_next h
  · exact ⟨rfl, id⟩
  · exact ⟨rfl, fun _ => rfl⟩
  · exact ⟨rfl, fun _ => rfl⟩
  · have heff := runCtrl_effect hr
    exact ⟨heff.cfg_eq, fun hl => heff.live_eq.trans hl⟩

/-! ### The invariant at reset -/

theorem zip_map_forall {α β : Type} {P : α → β → Prop} {f : α → β} {l : List α} (h : ∀ a ∈ l, P a (f a)) :
    ∀ p ∈ l.zip (l.map f), P p.1 p.2 := by
  intro p hp
  have hzip : l.zip (l.map f) = l.map fun a => (a, f a) := by
    simpa using List.zip_map' (f := id) (g := f) (l := l)
  obtain ⟨a, ha, rfl⟩ := List.mem_map.1 (hzip ▸ hp)
  exact h a ha

theorem channelOk_afterReset (w : Nat) {k : SwaConfig} (hk : k.Legal) :
    ChannelOk w k (SwaChannel.afterReset k) := by
  refine ⟨List.length_replicate, hk, by simp [SwaChannel.afterReset], fun v hv => ?_⟩
  have hpow : (0 : Int) < 2 ^ (w - 1) := by positivity
  obtain ⟨-, rfl⟩ := List.mem_replicate.1 hv
  exact ⟨by omega, by omega⟩

/-- Reset leads to the invariant from every state with a legal configuration, whatever its channels hold. -/
theorem applyReset_inv {s : State} (hc : s.cfg.Legal) : s.applyReset.Inv := by
  have ⟨_, _, _, _, _, hswa, hmap⟩ := hc
  refine ⟨hc, fun _ => ⟨⟨List.length_map _, ?_⟩, ⟨List.length_map _, ?_⟩⟩, fun hl => by cases hl⟩
  · exact zip_map_forall fun k hk => channelOk_afterReset _ (hswa k hk)
  · refine zip_map_forall fun k hk => ?_
    obtain ⟨-, -, -, -, hinit, -⟩ := hmap k hk
    exact hinit

/-- Settles O35: the reference configuration is legal, and reset leads to the invariant. -/
theorem resetMeetsTheInvariant : Obligations.ResetMeetsTheInvariant :=
  ⟨applyReset_inv (s := State.powerUp Config.reference) (by decide), rfl⟩

/-! ### The range of a mapper output (43_mapper R150, R152, R154) -/

theorem tdiv_mul_mem {a d e : Int} (ha : 0 ≤ a) (had : a ≤ d) (hd : 0 < d) (he : 0 ≤ e) :
    0 ≤ tdiv (a * e) d ∧ tdiv (a * e) d ≤ e := by
  have hprod : 0 ≤ a * e := Int.mul_nonneg ha he
  rw [tdiv_eq, Int.tdiv_eq_ediv_of_nonneg hprod]
  exact ⟨Int.ediv_nonneg hprod hd.le,
    Int.ediv_le_of_le_mul hd (Int.mul_comm e d ▸ Int.mul_le_mul_of_nonneg_right had he)⟩

/-- Scaling by a fraction `a / d` from 0 to 1 stays between 0 and what is scaled: truncation is odd, so the case
of a negative factor is the other one negated. -/
theorem tdiv_mul_between {a d : Int} (e : Int) (ha : 0 ≤ a) (had : a ≤ d) (hd : 0 < d) :
    min 0 e ≤ tdiv (a * e) d ∧ tdiv (a * e) d ≤ max 0 e := by
  obtain he | he := le_total 0 e
  · have hmem := tdiv_mul_mem ha had hd he
    omega
  · have hmem := tdiv_mul_mem (e := -e) ha had hd (by omega)
    rw [Int.mul_neg, tdiv_eq, Int.neg_tdiv, ← tdiv_eq] at hmem
    omega

theorem linearMap_between {x low high : Int} (bg en : Int) (h : low ≤ high) :
    min bg en ≤ linearMap x low high bg en ∧ linearMap x low high bg en ≤ max bg en := by
  unfold linearMap
  split
  · omega
  · have hclamp := clamp_mem x low high h
    have hscaled := tdiv_mul_between (a := clamp x low high - low) (d := high - low) (en - bg)
      (by omega) (by omega) (by omega)
    omega

theorem mapTarget_outOk {w : Nat} {k : MapConfig} (hk : k.Legal w) (pres : Bool) (x : Int) :
    OutOk k (mapTarget k pres x) := by
  obtain ⟨-, hin, hout, hrest, -, -⟩ := hk
  cases pres with
  | false => exact hrest
  | true =>
    have hmap := linearMap_between (x := clamp x k.inMin k.inMax) k.outMax k.outMin hin.le
    simp only [mapTarget, if_true, OutOk]
    omega

/-- The delta clamp never leaves an interval that holds both the output and the target. -/
theorem deltaStep_between {d t o lo hi : Int} (hd : 0 ≤ d) (ht : lo ≤ t ∧ t ≤ hi) (ho : lo ≤ o ∧ o ≤ hi) :
    lo ≤ deltaStep d t o ∧ deltaStep d t o ≤ hi := by
  rw [deltaStep, clamp_eq_max_min _ _ _ (by omega)]
  omega

/-! ### Every request keeps the invariant -/

/-- Writing one averager channel with a state that agrees with its configuration keeps the averagers. -/
theorem AveragersOk.setSwa {s : State} (h : s.AveragersOk) {c : Nat} {k : SwaConfig} {ch : SwaChannel}
    (hk : s.cfg.swa[c]? = some k) (hch : ChannelOk s.cfg.wS k ch) : (s.setSwa c ch).AveragersOk := by
  obtain ⟨hlen, hall⟩ := h
  refine ⟨by simp [hlen], zip_set_forall _ _ _ _ hall fun k' hk' => ?_⟩
  cases hk.symm.trans hk'
  exact hch

/-- Writing one mapper output within its channel's bounds keeps the mappers. -/
theorem MappersOk.setOut {s : State} (h : s.MappersOk) {m : Nat} {k : MapConfig} {o : Int}
    (hk : s.cfg.map[m]? = some k) (ho : OutOk k o) : (s.setOut m o).MappersOk := by
  obtain ⟨hlen, hall⟩ := h
  refine ⟨by simp [hlen], zip_set_forall _ _ _ _ hall fun k' hk' => ?_⟩
  cases hk.symm.trans hk'
  exact ho

theorem RequestEffect.inv {s t : State} (h : RequestEffect s t) (hs : s.Inv) (hl : s.live = true) : t.Inv := by
  obtain ⟨hc, hlive, hdead⟩ := hs
  obtain ⟨hswa, hout⟩ := hlive hl
  have hnotDead : s.live ≠ false := by simp [hl]
  have ⟨_, ⟨hwS, _⟩, _, _, _, hcapacity, hmap⟩ := hc
  cases h with
  | replied q => exact ⟨hc, hlive, hdead⟩
  | averaged q hk hch hold =>
    obtain ⟨ch', hch', hok⟩ := AveragersOk.get hswa hk
    cases hch.symm.trans hch'
    have hadd := hok.add (sext_fitsSigned (by omega) s.op.s) hold (hcapacity _ (List.mem_of_getElem? hk))
    exact ⟨hc, fun _ => ⟨AveragersOk.setSwa hswa hk hadd, hout⟩, fun hf => absurd hf hnotDead⟩
  | mapped pres q hk ho =>
    obtain ⟨o', ho', hok⟩ := MappersOk.get hout hk
    cases ho.symm.trans ho'
    have hlegal := hmap _ (List.mem_of_getElem? hk)
    have ⟨_, _, _, _, _, hdelta⟩ := hlegal
    have hstep := deltaStep_between hdelta (mapTarget_outOk hlegal pres s.opX) hok
    exact ⟨hc, fun _ => ⟨hswa, MappersOk.setOut hout hk hstep⟩, fun hf => absurd hf hnotDead⟩

/-- Settles O34: an idle step changes nothing, a reset leads to the invariant by itself, and a request that is
answered has one of the effects that keep it. -/
theorem everyStepKeepsTheInvariant : Obligations.EveryStepKeepsTheInvariant := by
  intro s t hs h
  obtain ⟨hc, ⟨-, rfl⟩ | ⟨rest, -, rfl⟩ | ⟨r, rest, -, rfl⟩ | ⟨r, rest, -, hr⟩⟩ := step_next h
  · exact hs
  · exact applyReset_inv (s := { s with inputs := rest }) hc
  · exact applyReset_inv (s := { s with inputs := rest }) hc
  · obtain ⟨-, hl⟩ := runCtrl_ready hr
    exact (runCtrl_effect hr).inv hs hl

/-! ### A request does not read what the host has still to do nor the earlier responses -/

/-- The state with other pending actions and other earlier responses on its interface. -/
def State.withHost (s : State) (inputs : List Input) (responses : List Response) : State :=
  { s with inputs := inputs, responses := responses }

/-- From `s` and from `s` with another host, `run` appends the same response and leaves the same state
otherwise. -/
def SameAnswer (run : State → Result) (s t : State) (inputs : List Input) (responses : List Response) : Prop :=
  ∃ q, t.responses = s.responses ++ [q] ∧
    run (s.withHost inputs responses) = .next (t.withHost inputs (responses ++ [q]))

theorem execSwaAdd_badChannel {ch : BitVec 8} {s : State} (hs : s.Ready)
    (hk : s.cfg.swa[ch.toNat]? = none) : execSwaAdd ch s = .next (s.reply { status := .badChannel }) := by
  obtain ⟨hc, hl⟩ := hs
  simp only [execSwaAdd, perform_of_ready hc hl, hk, State.raise]

theorem execSwaAdd_channel {ch : BitVec 8} {s : State} {k : SwaConfig} {c : SwaChannel} {old : Int}
    (hs : s.Ready) (hk : s.cfg.swa[ch.toNat]? = some k) (hch : s.swa[ch.toNat]? = some c)
    (hold : c.buf[c.cur]? = some old) :
    execSwaAdd ch s = .next ((s.setSwa ch.toNat (c.add k old s.opS)).reply
      { status := .ok, val := some (windowAverage k (c.add k old s.opS).sum) }) := by
  obtain ⟨hc, hl⟩ := hs
  simp only [execSwaAdd, perform_of_ready hc hl, hk, hch, hold, State.finish]

theorem execMapStep_badChannel {pres : Bool} {ch : BitVec 8} {s : State} (hs : s.Ready)
    (hk : s.cfg.map[ch.toNat]? = none) :
    execMapStep pres ch s = .next (s.reply { status := .badChannel }) := by
  obtain ⟨hc, hl⟩ := hs
  simp only [execMapStep, perform_of_ready hc hl, hk, State.raise]

theorem execMapStep_channel {pres : Bool} {ch : BitVec 8} {s : State} {k : MapConfig} {o o2 : Int}
    (hs : s.Ready) (hk : s.cfg.map[ch.toNat]? = some k) (ho : s.out[ch.toNat]? = some o)
    (ho2 : o2 = deltaStep k.delta (mapTarget k pres s.opX) o) :
    execMapStep pres ch s = .next ((s.setOut ch.toNat o2).reply { status := .ok, val := some o2 }) := by
  obtain ⟨hc, hl⟩ := hs
  simp only [execMapStep, perform_of_ready hc hl, hk, ho, ho2, State.finish]

theorem exec_sameAnswer {i : Instr} {s t : State} (h : exec i s = .next t) (l : List Input)
    (rs : List Response) : SameAnswer (exec i) s t l rs := by
  cases i with
  | swaAdd ch =>
    obtain ⟨hc, hl, ⟨hk, rfl⟩ | ⟨k, c, old, hk, hch, hold, rfl⟩⟩ := execSwaAdd_next h
    · exact ⟨_, rfl, execSwaAdd_badChannel (s := s.withHost l rs) ⟨hc, hl⟩ hk⟩
    · exact ⟨_, rfl, execSwaAdd_channel (s := s.withHost l rs) ⟨hc, hl⟩ hk hch hold⟩
  | mapStep pres ch =>
    obtain ⟨hc, hl, ⟨hk, rfl⟩ | ⟨k, o, o2, hk, ho, ho2, rfl⟩⟩ := execMapStep_next h
    · exact ⟨_, rfl, execMapStep_badChannel (s := s.withHost l rs) ⟨hc, hl⟩ hk⟩
    · exact ⟨_, rfl, execMapStep_channel (s := s.withHost l rs) ⟨hc, hl⟩ hk ho ho2⟩
  | _ =>
    obtain ⟨hc, hl, rfl⟩ := exec_stateless_next rfl h
    exact ⟨_, rfl, (exec_stateless rfl _).trans (perform_of_ready (s := s.withHost l rs) hc hl)⟩

theorem runCtrl_sameAnswer {c : Ctrl} {s t : State} (h : runCtrl c s = .next t) (l : List Input)
    (rs : List Response) : SameAnswer (runCtrl c) s t l rs := by
  obtain ⟨i, hd, hi⟩ | ⟨st, hd, hc, hl, rfl⟩ := runCtrl_next h
  · obtain ⟨q, hq, hrun⟩ := exec_sameAnswer hi l rs
    exact ⟨q, hq, by simpa only [runCtrl, hd] using hrun⟩
  · refine ⟨_, rfl, ?_⟩
    simp only [runCtrl, hd]
    exact perform_of_ready (s := s.withHost l rs) hc hl

theorem step_of_request {s : State} {r : Request} {rest : List Input} (hc : s.cfg.Legal)
    (hi : s.inputs = .request r :: rest) : step s = runCtrl r.ctrl (s.accept r rest) := by
  rw [step, runNext, if_pos hc, hi]
  rfl

/-- A request overwrites the operand fields, so two states that agree on the rest and accept the same request
differ in the host alone. -/
theorem accept_eq_withHost {s s' : State} (r : Request) (rest rest' : List Input) (hcfg : s'.cfg = s.cfg)
    (hlive : s'.live = s.live) (hswa : s'.swa = s.swa) (hout : s'.out = s.out) :
    s'.accept r rest' = (s.accept r rest).withHost rest' s'.responses := by
  simp only [State.accept, State.withHost, hcfg, hlive, hswa, hout]

/-- Settles O46: once the request is accepted the two states differ in the host alone, which no request
reads. -/
theorem nothingElsePersists : Obligations.NothingElsePersists := by
  intro s s' t r rest rest' hcfg hlive hswa hout hi hi' h
  obtain ⟨hc, -⟩ := step_next h
  rw [step_of_request hc hi] at h
  obtain ⟨q, hq, hrun⟩ := runCtrl_sameAnswer h rest' s'.responses
  rw [← accept_eq_withHost r rest rest' hcfg hlive hswa hout, ← step_of_request (hcfg ▸ hc) hi'] at hrun
  exact ⟨_, q, hrun, hq, rfl, rfl, rfl, rfl, rfl⟩

end Sys2Proof.Machine
end

section
/-! PROOFS. The statements of 20_memory: the host's requests are performed one at a time in order (R47), and the
six instructions that hold no state change the responses alone and answer the same again (R45). -/

namespace Sys2Proof.Machine

/-- Settles O43: the response depends on the configuration and the operand fields, and appending it changes
neither. -/
theorem statelessInstructionsFrame : Obligations.StatelessInstructionsFrame := by
  intro i s t hi h
  obtain ⟨hc, hl, rfl⟩ := exec_stateless_next hi h
  exact ⟨_, rfl, (exec_stateless hi _).trans (perform_of_ready hc hl)⟩

/-! ### Every request is answered under the invariant -/

theorem RequestEffect.inputs_eq {s t : State} (h : RequestEffect s t) : t.inputs = s.inputs := by
  cases h <;> rfl

theorem RequestEffect.responses_eq {s t : State} (h : RequestEffect s t) :
    ∃ q, t.responses = s.responses ++ [q] := by
  cases h <;> exact ⟨_, rfl⟩

/-- A fault needs a configured channel without a state, which the invariant excludes. -/
theorem exec_next_of_inv (i : Instr) {s : State} (hs : s.Inv) (hl : s.live = true) : ∃ t, exec i s = .next t := by
  obtain ⟨hc, hlive, -⟩ := hs
  obtain ⟨hswa, hout⟩ := hlive hl
  cases i with
  | swaAdd ch =>
    cases hk : s.cfg.swa[ch.toNat]? with
    | none => exact ⟨_, execSwaAdd_badChannel ⟨hc, hl⟩ hk⟩
    | some k =>
      obtain ⟨c, hch, hlen, hcur, -⟩ := AveragersOk.get hswa hk
      have hold := List.getElem?_eq_getElem (hlen.symm ▸ hcur)
      exact ⟨_, execSwaAdd_channel ⟨hc, hl⟩ hk hch hold⟩
  | mapStep pres ch =>
    cases hk : s.cfg.map[ch.toNat]? with
    | none => exact ⟨_, execMapStep_badChannel ⟨hc, hl⟩ hk⟩
    | some k =>
      obtain ⟨o, ho, -⟩ := MappersOk.get hout hk
      exact ⟨_, execMapStep_channel ⟨hc, hl⟩ hk ho rfl⟩
  | _ => exact ⟨_, (exec_stateless rfl s).trans (perform_of_ready hc hl)⟩

theorem runCtrl_next_of_inv (c : Ctrl) {s : State} (hs : s.Inv) (hl : s.live = true) :
    ∃ t, runCtrl c s = .next t := by
  unfold runCtrl
  split
  · exact exec_next_of_inv _ hs hl
  · exact ⟨_, perform_of_ready hs.1 hl⟩

/-- One request is taken and answered, and the next one finds the same conditions. -/
theorem step_answers_request {s : State} {r : Request} {rest : List Input} (hs : s.Inv) (hl : s.live = true)
    (hi : s.inputs = .request r :: rest) :
    ∃ (t : State) (q : Response), step s = .next t ∧ t.Inv ∧ t.live = true ∧ t.inputs = rest ∧
      t.responses = s.responses ++ [q] := by
  obtain ⟨t, ht⟩ := runCtrl_next_of_inv r.ctrl (s := s.accept r rest) hs hl
  have heff := runCtrl_effect ht
  obtain ⟨q, hq⟩ := heff.responses_eq
  exact ⟨t, q, (step_of_request hs.1 hi).trans ht, heff.inv hs hl, heff.live_eq.trans hl, heff.inputs_eq, hq⟩

/-! ### Runs of requests -/

/-- From `s`, the j-th response is the one a step gives to the j-th request from the state after `j` steps, in
which just the first `j` responses have been appended. -/
def AnswersInOrder (s : State) (rs : List Request) (qs : List Response) : Prop :=
  ∀ (j : Nat) (r : Request) (q : Response), rs[j]? = some r → qs[j]? = some q →
    ∃ u v : State, stepN j s = .next u ∧ u.responses = s.responses ++ qs.take j ∧
      u.inputs.head? = some (.request r) ∧ step u = .next v ∧ v.responses = u.responses ++ [q]

/-- A run answers in order when its first step answers the first request and the rest of it answers the others
in order. -/
theorem AnswersInOrder.cons {s t : State} {r : Request} {q : Response} {rs : List Request} {qs : List Response}
    (hr : s.inputs.head? = some (.request r)) (hstep : step s = .next t)
    (hq : t.responses = s.responses ++ [q]) (h : AnswersInOrder t rs qs) :
    AnswersInOrder s (r :: rs) (q :: qs) := by
  intro j r' q' hr' hq'
  cases j with
  | zero =>
    cases hr'
    cases hq'
    exact ⟨s, t, rfl, (List.append_nil _).symm, hr, hstep, hq⟩
  | succ j =>
    obtain ⟨u, v, hu, hures, hurest⟩ := h j r' q' hr' hq'
    refine ⟨u, v, (stepN_succ_of_next j hstep).trans hu, ?_, hurest⟩
    rw [hures, hq, List.append_assoc, List.singleton_append, List.take_succ_cons]

/-- Settles O42, by induction on the requests: the first is answered by one step, which keeps the invariant and
leaves the others offered. -/
theorem requestsRunInOrder : Obligations.RequestsRunInOrder := by
  intro s rs rest hs hl hi
  induction rs generalizing s with
  | nil => exact ⟨s, [], rfl, hs, hi, (List.append_nil _).symm, rfl, fun j r q hr _ => nomatch hr⟩
  | cons r rs ih =>
    obtain ⟨t, q, hstep, ht, htl, hti, htq⟩ := step_answers_request hs hl hi
    obtain ⟨t', qs, hrun, ht', hinputs, hresponses, hlen, horder⟩ := ih t ht htl hti
    have hfirst : AnswersInOrder s (r :: rs) (q :: qs) :=
      AnswersInOrder.cons (by rw [hi]; rfl) hstep htq horder
    refine ⟨t', q :: qs, (stepN_succ_of_next _ hstep).trans hrun, ht', hinputs, ?_, ?_, hfirst⟩
    · rw [hresponses, htq, List.append_assoc, List.singleton_append]
    · rw [List.length_cons, List.length_cons, hlen]

end Sys2Proof.Machine
end

section
/-! PROOFS. The statements of 30_encoding, the decoder: a word selects an opcode by its match and mask and gives
back the word of its instruction (R51 to R53), and every other word is refused (R54, R55). -/

namespace Sys2Proof

/-! ### The opcode map -/

/-- No bit of the word is set outside OPC and the opcode's free bits (30_encoding R52). -/
abbrev Opcode.ReservedClear (o : Opcode) (c : Ctrl) : Prop := c &&& ~~~(o.free ||| 0x000000FF#32) = 0#32

theorem mem_assignedOpcodes_iff {b : Byte} : b ∈ Machine.assignedOpcodes ↔ ∃ o : Opcode, o.code = b := by
  have hcodes : Machine.assignedOpcodes = Opcode.all.map Opcode.code := by decide
  have hall : ∀ o : Opcode, o ∈ Opcode.all := fun o => by cases o <;> decide
  simp [hcodes, hall]

theorem decodeCtrl_of_unassigned {c : Ctrl} (h : ctrlOpc c ∉ Machine.assignedOpcodes) :
    decodeCtrl c = .error .illegalOp := by
  unfold decodeCtrl
  split
  · rfl
  · next o ho => exact absurd (mem_assignedOpcodes_iff.2 ⟨o, Opcode.code_of_ofCode ho⟩) h

theorem decodeCtrl_of_clear {c : Ctrl} {o : Opcode} (ho : o.code = ctrlOpc c) (h : o.ReservedClear c) :
    decodeCtrl c = .ok (o.instr c) := by
  simp only [decodeCtrl, ← ho, Opcode.ofCode_code, if_pos h]

theorem decodeCtrl_of_not_clear {c : Ctrl} {o : Opcode} (ho : o.code = ctrlOpc c) (h : ¬ o.ReservedClear c) :
    decodeCtrl c = .error .reserved := by
  simp only [decodeCtrl, ← ho, Opcode.ofCode_code, if_neg h]

/-- A control word has one of three readings (30_encoding R52). -/
theorem decodeCtrl_cases (c : Ctrl) :
    (ctrlOpc c ∉ Machine.assignedOpcodes ∧ decodeCtrl c = .error .illegalOp) ∨
    ∃ o : Opcode, o.code = ctrlOpc c ∧
      ((o.ReservedClear c ∧ decodeCtrl c = .ok (o.instr c)) ∨
        (¬ o.ReservedClear c ∧ decodeCtrl c = .error .reserved)) := by
  by_cases hmem : ctrlOpc c ∈ Machine.assignedOpcodes
  · obtain ⟨o, ho⟩ := mem_assignedOpcodes_iff.1 hmem
    by_cases hclear : o.ReservedClear c
    · exact .inr ⟨o, ho, .inl ⟨hclear, decodeCtrl_of_clear ho hclear⟩⟩
    · exact .inr ⟨o, ho, .inr ⟨hclear, decodeCtrl_of_not_clear ho hclear⟩⟩
  · exact .inl ⟨hmem, decodeCtrl_of_unassigned hmem⟩

@[simp] theorem Opcode.opcode_instr (o : Opcode) (c : Ctrl) : (o.instr c).opcode = o := by
  cases o <;> rfl

theorem decodeCtrl_eq_ok_iff (c : Ctrl) (i : Instr) :
    decodeCtrl c = .ok i ↔ i.opcode.code = ctrlOpc c ∧ i.opcode.ReservedClear c ∧ i = i.opcode.instr c := by
  constructor
  · intro h
    obtain ⟨-, hd⟩ | ⟨o, ho, ⟨hclear, hd⟩ | ⟨-, hd⟩⟩ := decodeCtrl_cases c <;> cases hd.symm.trans h
    rw [Opcode.opcode_instr]
    exact ⟨ho, hclear, rfl⟩
  · rintro ⟨ho, hclear, hi⟩
    rw [decodeCtrl_of_clear ho hclear, ← hi]

theorem decodeCtrl_eq_error_iff (c : Ctrl) (st : Status) :
    decodeCtrl c = .error st ↔
      (st = .illegalOp ∧ ctrlOpc c ∉ Machine.assignedOpcodes) ∨
      (st = .reserved ∧ ∃ o : Opcode, o.code = ctrlOpc c ∧ ¬ o.ReservedClear c) := by
  constructor
  · intro h
    obtain ⟨hmem, hd⟩ | ⟨o, ho, ⟨-, hd⟩ | ⟨hclear, hd⟩⟩ := decodeCtrl_cases c <;> cases hd.symm.trans h
    · exact .inl ⟨rfl, hmem⟩
    · exact .inr ⟨rfl, o, ho, hclear⟩
  · rintro (⟨rfl, hmem⟩ | ⟨rfl, o, ho, hclear⟩)
    · exact decodeCtrl_of_unassigned hmem
    · exact decodeCtrl_of_not_clear ho hclear

/-! ### Match and mask -/

theorem getLsbD_opcBits (j : Nat) : (0x000000FF#32).getLsbD j = decide (j < 8) := by
  have hones : 0x000000FF#32 = (BitVec.allOnes 8).setWidth 32 := by decide
  rw [hones, BitVec.getLsbD_setWidth, BitVec.getLsbD_allOnes]
  by_cases h : j < 8
  · simp [h, (by omega : j < 32)]
  · simp [h]

theorem and_opcBits (c : Ctrl) : c &&& 0x000000FF#32 = (ctrlOpc c).setWidth 32 := by
  apply BitVec.eq_of_getLsbD_eq
  intro j hj
  simp only [ctrlOpc, BitVec.getLsbD_and, getLsbD_opcBits, BitVec.getLsbD_setWidth, BitVec.getLsbD_extractLsb']
  simp [hj, Bool.and_comm]

theorem ctrlOpc_setWidth (b : Byte) : ctrlOpc (b.setWidth 32) = b := by
  apply BitVec.eq_of_getLsbD_eq
  intro j hj
  simp [ctrlOpc, hj, (by omega : j < 32)]

theorem ctrlOpc_and_or_opcBits (c m : Ctrl) : ctrlOpc (c &&& (m ||| 0x000000FF#32)) = ctrlOpc c := by
  apply BitVec.eq_of_getLsbD_eq
  intro j hj
  simp [ctrlOpc, getLsbD_opcBits, hj]

theorem setWidth_and_not_opcBits (b : Byte) (free : Ctrl) :
    b.setWidth 32 &&& ~~~(free ||| 0x000000FF#32) = 0#32 := by
  apply BitVec.eq_of_getLsbD_eq
  intro j hj
  by_cases h8 : j < 8
  · simp [getLsbD_opcBits, h8]
  · simp [BitVec.getLsbD_of_ge b j (by omega)]

/-- Keeping OPC and the bits outside the free ones leaves the byte `b` exactly when OPC is `b` and the others are
clear. -/
theorem and_fixed_eq_iff (c free : Ctrl) (b : Byte) :
    c &&& (~~~(free ||| 0x000000FF#32) ||| 0x000000FF#32) = b.setWidth 32 ↔
      b = ctrlOpc c ∧ c &&& ~~~(free ||| 0x000000FF#32) = 0#32 := by
  constructor
  · intro h
    constructor
    · rw [← ctrlOpc_and_or_opcBits c, h, ctrlOpc_setWidth]
    · have habsorb (m n : Ctrl) : (m ||| n) &&& m = m := by ext; simp; tauto
      rw [← setWidth_and_not_opcBits b free, ← h, BitVec.and_assoc, habsorb]
  · rintro ⟨rfl, h⟩
    rw [BitVec.and_or_distrib_left, h, BitVec.zero_or, and_opcBits]

theorem Opcode.maskWord_eq (o : Opcode) : o.maskWord = ~~~(o.free ||| 0x000000FF#32) ||| 0x000000FF#32 := by
  cases o <;> decide

theorem Opcode.matchWord_eq (o : Opcode) : o.matchWord = o.code.setWidth 32 := by
  cases o <;> decide

theorem Opcode.matches_iff (o : Opcode) (c : Ctrl) :
    c &&& o.maskWord = o.matchWord ↔ o.code = ctrlOpc c ∧ o.ReservedClear c := by
  rw [o.maskWord_eq, o.matchWord_eq, and_fixed_eq_iff]

/-- A word gives an instruction exactly when it meets the match and mask of its opcode's row and has its fields
(30_encoding R52, R53). -/
theorem decodeCtrl_eq_ok_iff_matches (c : Ctrl) (i : Instr) :
    decodeCtrl c = .ok i ↔ c &&& i.opcode.maskWord = i.opcode.matchWord ∧ i = i.opcode.instr c := by
  rw [decodeCtrl_eq_ok_iff, Opcode.matches_iff, and_assoc]

/-! ### Decode and encode -/

theorem encode_matches (i : Instr) : encode i &&& i.opcode.maskWord = i.opcode.matchWord :=
  match i with
  | .encCmd rev => (Laws.TableRow.encCmd rev).1
  | .chksum => Laws.TableRow.chksum.1
  | .decResp => Laws.TableRow.decResp.1
  | .respAck => Laws.TableRow.respAck.1
  | .decData => Laws.TableRow.decData.1
  | .swaAdd ch => (Laws.TableRow.swaAdd ch).1
  | .mapStep pres ch => (Laws.TableRow.mapStep pres ch).1
  | .linMap => Laws.TableRow.linMap.1

/-- The fields an opcode has are read back from the word of its instruction. -/
theorem instr_encode (i : Instr) : i.opcode.instr (encode i) = i := by
  cases i <;> simp [Instr.opcode, Opcode.instr, encode]

/-- Settles O2: the word of an instruction meets the match and mask of its row and carries its fields. -/
theorem encodeThenDecode : Obligations.EncodeThenDecode :=
  fun i => (decodeCtrl_eq_ok_iff_matches _ i).2 ⟨encode_matches i, (instr_encode i).symm⟩

/-- Settles O4: two of the words are those of ENC.CMD and CHKSUM, two those of a channel instruction. -/
theorem workedWordsDecode : Obligations.WorkedWordsDecode :=
  ⟨encodeThenDecode (.encCmd true), encodeThenDecode .chksum, encodeThenDecode (.swaAdd 5#8),
    encodeThenDecode (.mapStep true 1#8)⟩

theorem extractLsb'_eq_zero_iff (c : Ctrl) (start len : Nat) :
    c.extractLsb' start len = 0#len ↔ ∀ j, start ≤ j → j < start + len → c.getLsbD j = false := by
  constructor
  · intro h j hs hj
    have hbit := congrArg (BitVec.getLsbD · (j - start)) h
    simpa [BitVec.getLsbD_extractLsb', (by omega : j - start < len), (by omega : start + (j - start) = j)]
      using hbit
  · intro h
    apply BitVec.eq_of_getLsbD_eq
    intro j hj
    simp [hj, h (start + j) (by omega) (by omega)]

theorem Opcode.getLsbD_free (o : Opcode) : ∀ j < 32, o.free.getLsbD j = decide
    ((8 ≤ j ∧ j < 16 ∧ (o = .swaAdd ∨ o = .mapStep)) ∨ (j = 16 ∧ o = .encCmd) ∨ (j = 17 ∧ o = .mapStep)) := by
  cases o <;> decide

theorem Opcode.reservedClear_iff_bits (o : Opcode) (c : Ctrl) :
    o.ReservedClear c ↔ ∀ j, 8 ≤ j → j < 32 → o.free.getLsbD j = false → c.getLsbD j = false := by
  constructor
  · intro h j h8 hj hfree
    have hbit := congrArg (BitVec.getLsbD · j) h
    have hj8 : decide (j < 8) = false := decide_eq_false (by omega)
    simpa only [BitVec.getLsbD_and, BitVec.getLsbD_not, BitVec.getLsbD_or, getLsbD_opcBits, hfree, hj8,
      decide_eq_true hj, Bool.or_false, Bool.not_false, Bool.and_true, BitVec.getLsbD_zero] using hbit
  · intro h
    apply BitVec.eq_of_getLsbD_eq
    intro j hj
    rw [BitVec.getLsbD_and, BitVec.getLsbD_not, BitVec.getLsbD_or, getLsbD_opcBits]
    by_cases h8 : j < 8
    · simp [h8]
    · cases hfree : o.free.getLsbD j
      · simp [h j (by omega) hj hfree]
      · simp

/-- The bits that must be clear are RSVD and the fields of R51 that the opcode does not use (30_encoding R54). -/
theorem Opcode.reservedClear_iff (o : Opcode) (c : Ctrl) :
    o.ReservedClear c ↔ c.extractLsb' 18 14 = 0#14 ∧ (o ≠ .swaAdd → o ≠ .mapStep → ctrlCh c = 0#8) ∧
      (o ≠ .encCmd → ctrlRev c = false) ∧ (o ≠ .mapStep → ctrlPres c = false) := by
  rw [o.reservedClear_iff_bits, ctrlCh, extractLsb'_eq_zero_iff, extractLsb'_eq_zero_iff, ctrlRev, ctrlPres]
  constructor
  · intro h
    have hbit (j : Nat) (h8 : 8 ≤ j) (hj : j < 32) := o.getLsbD_free j hj ▸ h j h8 hj
    simp only [decide_eq_false_iff_not] at hbit
    refine ⟨fun j _ _ => hbit j (by omega) (by omega) (by omega),
      fun hswa hmap j _ _ => hbit j (by omega) (by omega) ?_,
      fun henc => hbit 16 (by omega) (by omega) (by simp [henc]),
      fun hmap => hbit 17 (by omega) (by omega) (by simp [hmap])⟩
    rintro (⟨-, -, ho | ho⟩ | ⟨rfl, -⟩ | ⟨rfl, -⟩)
    · exact hswa ho
    · exact hmap ho
    · omega
    · omega
  · rintro ⟨hrsvd, hch, hrev, hpres⟩ j h8 hj hfree
    rw [o.getLsbD_free j hj, decide_eq_false_iff_not] at hfree
    obtain hj | rfl | rfl | hj : j < 16 ∨ j = 16 ∨ j = 17 ∨ 18 ≤ j := by omega
    · exact hch (fun ho => hfree (.inl ⟨h8, hj, .inl ho⟩)) (fun ho => hfree (.inl ⟨h8, hj, .inr ho⟩)) j h8 hj
    · exact hrev fun ho => hfree (.inr (.inl ⟨rfl, ho⟩))
    · exact hpres fun ho => hfree (.inr (.inr ⟨rfl, ho⟩))
    · exact hrsvd j hj (by omega)

/-- Encoding the instruction that an opcode selects writes the fields back; those it does not use are clear. -/
theorem encode_instr {o : Opcode} {c : Ctrl} (h : o.ReservedClear c) :
    encode (o.instr c) = ctrlWord o.code (ctrlCh c) (ctrlRev c) (ctrlPres c) := by
  obtain ⟨-, hch, hrev, hpres⟩ := (o.reservedClear_iff c).1 h
  cases o <;> simp_all [Opcode.instr, encode]

/-- Settles O3: the bits that a decoded word may have set are its opcode and the fields of its instruction, and a
word with RSVD clear is the word of its fields. -/
theorem decodeThenEncode : Obligations.DecodeThenEncode := by
  intro c i h
  obtain ⟨hopc, hclear, hi⟩ := (decodeCtrl_eq_ok_iff c i).1 h
  obtain ⟨hrsvd, -⟩ := (i.opcode.reservedClear_iff c).1 hclear
  calc encode i = encode (i.opcode.instr c) := by rw [← hi]
    _ = ctrlWord (ctrlOpc c) (ctrlCh c) (ctrlRev c) (ctrlPres c) := by rw [encode_instr hclear, hopc]
    _ = c := (eq_ctrlWord_of_rsvd c hrsvd).symm

/-- The bits that R53 leaves free, by the opcode byte. -/
theorem Opcode.free_eq (o : Opcode) : o.free =
    (if o.code = 0x01#8 then 0x00010000#32
      else if o.code = 0x10#8 then 0x0000FF00#32
      else if o.code = 0x20#8 then 0x0002FF00#32
      else 0x00000000#32) := by
  cases o <;> decide

/-- Settles O1: a word decodes to an instruction exactly by the match and mask of its opcode's row, and else by the
two decode errors. -/
theorem decodeSelectsByMatchAndMask : Obligations.DecodeSelectsByMatchAndMask := by
  intro c
  have hok := decodeCtrl_eq_ok_iff_matches c
  refine ⟨fun rev => ?_, ?_, ?_, ?_, ?_, fun ch => ?_, fun pres ch => ?_, ?_, ?_⟩
  · exact (hok (.encCmd rev)).trans (and_congr_right' (Instr.encCmd.injEq rev _).to_iff)
  · exact (hok .chksum).trans (and_iff_left rfl)
  · exact (hok .decResp).trans (and_iff_left rfl)
  · exact (hok .respAck).trans (and_iff_left rfl)
  · exact (hok .decData).trans (and_iff_left rfl)
  · exact (hok (.swaAdd ch)).trans (and_congr_right' (Instr.swaAdd.injEq ch _).to_iff)
  · exact (hok (.mapStep pres ch)).trans (and_congr_right' (Instr.mapStep.injEq pres ch _ _).to_iff)
  · exact (hok .linMap).trans (and_iff_left rfl)
  · rintro opc st hopc
    obtain rfl : opc = ctrlOpc c := hopc
    rw [decodeCtrl_eq_error_iff]
    refine or_congr_right (and_congr_right' ?_)
    constructor
    · rintro ⟨o, ho, hclear⟩
      rw [← ho, ← o.free_eq]
      exact ⟨mem_assignedOpcodes_iff.2 ⟨o, rfl⟩, hclear⟩
    · rintro ⟨hmem, hclear⟩
      obtain ⟨o, ho⟩ := mem_assignedOpcodes_iff.1 hmem
      rw [← ho, ← o.free_eq] at hclear
      exact ⟨o, ho, hclear⟩

end Sys2Proof
end

section
/-! PROOFS. The statements of 30_encoding, requests: what a step does with the decoded request (R52) and with a word
that does not decode (R54, R55), and the requests of the assembler lines (R70, R71). -/

namespace Sys2Proof.Machine

theorem step_of_decode_ok {s : State} {r : Request} {rest : List Input} {i : Instr} (hc : s.cfg.Legal)
    (hi : s.inputs = .request r :: rest) (hd : decodeCtrl r.ctrl = .ok i) :
    step s = exec i (s.accept r rest) := by
  rw [step_of_request hc hi, runCtrl, hd]

theorem step_of_decode_error {s : State} {r : Request} {rest : List Input} {st : Status} (hs : s.Ready)
    (hi : s.inputs = .request r :: rest) (hd : decodeCtrl r.ctrl = .error st) :
    step s = .next ((s.accept r rest).reply { status := st }) := by
  obtain ⟨hc, hl⟩ := hs
  rw [step_of_request hc hi, runCtrl, hd]
  exact perform_of_ready hc hl

/-- Settles O8: accepting the request is what puts its operand fields on the port. -/
theorem stepRunsTheDecodedRequest : Obligations.StepRunsTheDecodedRequest :=
  fun _ _ _ _ hc hi hd => step_of_decode_ok hc hi hd

/-- Settles O5: no opcode has its byte in the four ranges, so the word decodes to ILLEGAL_OP. -/
theorem unassignedOpcodesAreIllegal : Obligations.UnassignedOpcodesAreIllegal := by
  intro s r rest n hs hi hn hrange
  have hunassigned : ctrlOpc r.ctrl ∉ assignedOpcodes := by
    intro hmem
    obtain ⟨o, ho⟩ := mem_assignedOpcodes_iff.1 hmem
    obtain rfl : n = o.code.toNat := hn.trans (congrArg BitVec.toNat ho.symm)
    cases o <;> revert hrange <;> decide
  exact step_of_decode_error hs hi (decodeCtrl_of_unassigned hunassigned)

/-- Settles O6: each of the four causes is a bit that the opcode needs clear. -/
theorem reservedBitsAreRefused : Obligations.ReservedBitsAreRefused := by
  intro s r rest opc hs hi hopc hmem hset
  obtain ⟨o, rfl⟩ := mem_assignedOpcodes_iff.1 hmem
  have hnotClear : ¬ o.ReservedClear r.ctrl := by
    intro hclear
    obtain ⟨hrsvd, hch, hrev, hpres⟩ := (o.reservedClear_iff r.ctrl).1 hclear
    obtain h | ⟨h, hswa, hmap⟩ | ⟨h, henc⟩ | ⟨h, hmap⟩ := hset
    · exact h hrsvd
    · exact h (hch (fun ho => hswa (ho ▸ rfl)) (fun ho => hmap (ho ▸ rfl)))
    · exact absurd h (Bool.eq_false_iff.1 (hrev fun ho => henc (ho ▸ rfl)))
    · exact absurd h (Bool.eq_false_iff.1 (hpres fun ho => hmap (ho ▸ rfl)))
  exact step_of_decode_error hs hi (decodeCtrl_of_not_clear hopc hnotClear)

/-! ### The assembler lines -/

theorem or_shiftLeft_eq_add {a n : Nat} (b : Nat) (h : a < 2 ^ n) : a ||| b <<< n = a + 2 ^ n * b := by
  rw [Nat.lor_comm, ← Nat.shiftLeft_add_eq_or_of_lt h, Nat.shiftLeft_eq, Nat.mul_comm, Nat.add_comm]

theorem toNat_setWidth_shiftLeft {w n : Nat} (v : BitVec w) (h : w + n ≤ 32) :
    (v.setWidth 32 <<< n).toNat = v.toNat <<< n := by
  have hlt : v.toNat <<< n < 2 ^ 32 := by
    calc v.toNat <<< n = v.toNat * 2 ^ n := Nat.shiftLeft_eq ..
      _ < 2 ^ w * 2 ^ n := Nat.mul_lt_mul_of_pos_right v.isLt (by positivity)
      _ = 2 ^ (w + n) := (Nat.pow_add ..).symm
      _ ≤ 2 ^ 32 := Nat.pow_le_pow_right (by omega) h
  rw [BitVec.toNat_shiftLeft, BitVec.toNat_setWidth_of_le (by omega), Nat.mod_eq_of_lt hlt]

/-- The word as a number: its fields at bits 0, 8, 16 and 17 (30_encoding R51). -/
theorem toNat_ctrlWord (opc ch : Byte) (rev pres : Bool) :
    (ctrlWord opc ch rev pres).toNat =
      opc.toNat + 2 ^ 8 * ch.toNat + 2 ^ 16 * rev.toNat + 2 ^ 17 * pres.toNat := by
  have hopc := opc.isLt
  have hch := ch.isLt
  have hrev := rev.toNat_lt
  rw [ctrlWord, BitVec.toNat_or, BitVec.toNat_or, BitVec.toNat_or, BitVec.toNat_setWidth_of_le (by omega),
    toNat_setWidth_shiftLeft ch (by omega), toNat_setWidth_shiftLeft _ (by omega),
    toNat_setWidth_shiftLeft _ (by omega), BitVec.toNat_ofBool, BitVec.toNat_ofBool]
  rw [or_shiftLeft_eq_add (n := 8) _ (by omega), or_shiftLeft_eq_add (n := 16) _ (by omega),
    or_shiftLeft_eq_add (n := 17) _ (by omega)]

theorem ctrlWord_eq_ofNat (opc ch : Byte) (rev pres : Bool) : ctrlWord opc ch rev pres =
    BitVec.ofNat 32 (opc.toNat + 2 ^ 8 * ch.toNat + 2 ^ 16 * rev.toNat + 2 ^ 17 * pres.toNat) := by
  rw [← toNat_ctrlWord, BitVec.ofNat_toNat, BitVec.setWidth_eq]

theorem sext_ofInt {w : Nat} {v : Int} (h1 : 1 ≤ w) (h64 : w ≤ 64) (hv : FitsSigned w v) :
    sext w (BitVec.ofInt 64 v) = v := by
  have hlow : (BitVec.ofInt 64 v).setWidth w = BitVec.ofInt w v := by
    have hdvd : ((2 ^ w : Nat) : Int) ∣ ((2 ^ 64 : Nat) : Int) :=
      Int.natCast_dvd_natCast.2 (Nat.pow_dvd_pow 2 h64)
    apply BitVec.eq_of_toInt_eq
    rw [BitVec.toInt_setWidth, BitVec.toNat_ofInt, BitVec.toInt_ofInt, Int.toNat_of_nonneg (by omega),
      ← Int.emod_bmod, Int.emod_emod_of_dvd _ hdvd, Int.emod_bmod]
  obtain ⟨hlo, hhi⟩ := hv
  rw [sext, hlow, BitVec.toInt_ofInt_eq_self h1 hlo (by omega)]

/-- Settles O7: the words without a channel are numerals, those with one are the number of their fields, and each
integer is read back at the width it fits. -/
theorem assemblerFormsGiveTheirWords : Obligations.AssemblerFormsGiveTheirWords := by
  refine ⟨fun _ _ => rfl, fun _ _ => rfl, fun _ _ _ => rfl, fun _ => rfl, fun _ => rfl, fun _ => rfl,
    fun c _ => ctrlWord_eq_ofNat _ c false false, fun c _ => ctrlWord_eq_ofNat _ c false false, fun c _ => ?_,
    fun _ _ _ _ _ => rfl, fun _ _ _ => sext_ofInt, fun _ _ _ _ => sext_ofInt, ?_,
    fun _ => rfl, fun _ _ => rfl, fun _ => rfl⟩
  · refine (ctrlWord_eq_ofNat _ c false true).trans (congrArg (BitVec.ofNat 32) ?_)
    show 0x20 + 2 ^ 8 * c.toNat + 2 ^ 16 * 0 + 2 ^ 17 * 1 = 0x00020020 + 256 * c.toNat
    omega
  · intro w x l h bg en h1 h64 hx hl hh hbg hen
    exact ⟨_, rfl, sext_ofInt h1 h64 hx, sext_ofInt h1 h64 hl, sext_ofInt h1 h64 hh, sext_ofInt h1 h64 hbg,
      sext_ofInt h1 h64 hen⟩

end Sys2Proof.Machine
end

section
/-! PROOFS. The statements of 30_encoding, fields: the offset-sign decode (R68), the operand fields an instruction
reads (R56), and the result fields it gives (R59). -/

namespace Sys2Proof.Machine

/-! ### The offset-sign decode -/

theorem getLsbD_15_eq_decide (raw : Half) : raw.getLsbD 15 = decide (0x8000 ≤ raw.toNat) := by
  rw [← raw.msb_eq_decide, raw.msb_eq_getLsbD_last]

/-- With bit 15 set the magnitude is what the raw value exceeds 0x8000 by, positive when high is positive. -/
theorem osign_of_high (highPos : Bool) {raw : Half} (h : 0x8000 ≤ raw.toNat) :
    osign highPos raw = if highPos then (raw.toNat : Int) - 0x8000 else 0x8000 - (raw.toNat : Int) := by
  have hlt := raw.isLt
  have hmag : ((raw.toNat % 2 ^ 15 : Nat) : Int) = raw.toNat - 0x8000 := by omega
  have hbit : raw.getLsbD 15 = true := by rw [getLsbD_15_eq_decide, decide_eq_true h]
  rw [osign, hmag, hbit]
  cases highPos
  · exact Int.neg_sub _ _
  · rfl

/-- With bit 15 clear the magnitude is the raw value, negative when high is positive. -/
theorem osign_of_low (highPos : Bool) {raw : Half} (h : raw.toNat < 0x8000) :
    osign highPos raw = if highPos then -(raw.toNat : Int) else raw.toNat := by
  have hmag : raw.toNat % 2 ^ 15 = raw.toNat := Nat.mod_eq_of_lt h
  have hbit : raw.getLsbD 15 = false := by rw [getLsbD_15_eq_decide, decide_eq_false (by omega)]
  rw [osign, hmag, hbit]
  cases highPos <;> rfl

theorem osign_mem (highPos : Bool) (raw : Half) : -32767 ≤ osign highPos raw ∧ osign highPos raw ≤ 32767 := by
  have hlt := raw.isLt
  obtain h | h := Nat.lt_or_ge raw.toNat 0x8000
  · rw [osign_of_low highPos h]
    split <;> omega
  · rw [osign_of_high highPos h]
    split <;> omega

theorem osign_eq_zero_iff (highPos : Bool) (raw : Half) :
    osign highPos raw = 0 ↔ raw = 0x0000#16 ∨ raw = 0x8000#16 := by
  rw [← BitVec.toNat_inj, ← BitVec.toNat_inj, BitVec.toNat_ofNat, BitVec.toNat_ofNat]
  obtain h | h := Nat.lt_or_ge raw.toNat 0x8000
  · rw [osign_of_low highPos h]
    split <;> omega
  · rw [osign_of_high highPos h]
    split <;> omega

/-- Settles O16, by whether bit 15 is set. -/
theorem offsetSignDecode : Obligations.OffsetSignDecode := by
  refine ⟨fun raw => ⟨fun h => ⟨osign_of_high true h, osign_of_high false h⟩,
    fun h => ⟨osign_of_low true h, osign_of_low false h⟩⟩, fun highPos raw => ?_⟩
  obtain ⟨hlo, hhi⟩ := osign_mem highPos raw
  exact ⟨hlo, hhi, osign_eq_zero_iff highPos raw⟩

/-! ### The operand fields an instruction reads -/

theorem withOperands_perform (op : Operands) (s : State) (body : Result) :
    withOperands op (s.perform body) = s.perform (withOperands op body) := by
  obtain ⟨-, -, h⟩ | ⟨-, -, h⟩ | ⟨-, h⟩ := perform_cases s <;> simp only [h, withOperands]

theorem mapTarget_congr {k : MapConfig} {pres : Bool} {x y : Int} (h : pres = true → x = y) :
    mapTarget k pres x = mapTarget k pres y := by
  cases pres with
  | false => rfl
  | true => rw [h rfl]

theorem execSwaAdd_congr {ch : BitVec 8} {s : State} {op : Operands} (h : s.op.s = op.s) :
    execSwaAdd ch { s with op := op } = withOperands op (execSwaAdd ch s) := by
  have hS : State.opS { s with op := op } = s.opS := by rw [State.opS, State.opS, h]
  rw [execSwaAdd, execSwaAdd, withOperands_perform, hS]
  refine (perform_congr (s := s) rfl rfl _).trans (congrArg s.perform ?_)
  dsimp only
  cases s.cfg.swa[ch.toNat]? with
  | none => rfl
  | some k =>
    cases s.swa[ch.toNat]? with
    | none => rfl
    | some c => dsimp only; cases c.buf[c.cur]? <;> rfl

theorem execMapStep_congr {pres : Bool} {ch : BitVec 8} {s : State} {op : Operands}
    (h : pres = true → s.op.x = op.x) :
    execMapStep pres ch { s with op := op } = withOperands op (execMapStep pres ch s) := by
  have htarget (k : MapConfig) : mapTarget k pres (State.opX { s with op := op }) = mapTarget k pres s.opX :=
    mapTarget_congr fun hp => by rw [State.opX, State.opX, h hp]
  simp only [execMapStep, withOperands_perform, htarget]
  refine (perform_congr (s := s) rfl rfl _).trans (congrArg s.perform ?_)
  cases s.cfg.map[ch.toNat]? with
  | none => rfl
  | some k => dsimp only; cases s.out[ch.toNat]? <;> rfl

/-- Settles O45: the response of a stateless instruction is a function of the fields it reads, SWA.ADD reads OP.S
alone, and MAP.STEP reads OP.X only for its target with PRES set. -/
theorem unreadOperandsDoNotMatter : Obligations.UnreadOperandsDoNotMatter := by
  intro i s op h
  cases i with
  | swaAdd ch => exact execSwaAdd_congr h
  | mapStep pres ch => exact execMapStep_congr h
  | _ =>
    rw [exec_stateless rfl, exec_stateless rfl, withOperands_perform, statelessResponse_congr rfl _ h]
    exact perform_congr rfl rfl _

/-! ### The result fields of a response -/

theorem commandFrame_length (rev : Bool) (w : Half) (v : Bytes) : (commandFrame rev w v).length = 12 + v.length := by
  cases rev <;> simp [commandFrame, cmdHdr, cmdFtr] <;> omega

theorem decodeTargets_length_le (highPos : Bool) (r : Bytes) : (decodeTargets highPos r).length ≤ 3 :=
  (List.length_filter_le _ _).trans (by simp)

theorem decodeTargets_mem_range {highPos : Bool} {r : Bytes} {t : Target} (h : t ∈ decodeTargets highPos r) :
    (-32767 ≤ t.x ∧ t.x ≤ 32767) ∧ (-32767 ≤ t.y ∧ t.y ≤ 32767) := by
  obtain ⟨k, -, rfl⟩ := List.mem_map.1 (List.mem_of_mem_filter h)
  exact ⟨osign_mem _ _, osign_mem _ _⟩

theorem linearMap_fitsSigned {w : Nat} {x low high bg en : Int} (h : low ≤ high) (hbg : FitsSigned w bg)
    (hen : FitsSigned w en) : FitsSigned w (linearMap x low high bg en) := by
  obtain ⟨hlo, hhi⟩ := linearMap_between (x := x) bg en h
  exact ⟨(le_min hbg.1 hen.1).trans hlo, hhi.trans (max_le hbg.2 hen.2)⟩

theorem fitsSigned_of_outOk {w : Nat} {k : MapConfig} (hk : k.Representable w) {o : Int} (ho : OutOk k o) :
    FitsSigned w o := by
  obtain ⟨-, -, ⟨hmin, -⟩, ⟨-, hmax⟩, -⟩ := hk
  exact ⟨hmin.trans ho.1, ho.2.trans hmax⟩

/-- An OK response of a stateless instruction has the result fields of its opcode. -/
theorem statelessResponse_shape {i : Instr} (h : Stateless i = true) {cfg : Config} (hw : 1 ≤ cfg.wM)
    (op : Operands) : (statelessResponse i cfg op).status = .ok →
      ResultShape cfg i (statelessResponse i cfg op) := by
  cases i with
  | swaAdd _ => cases h
  | mapStep _ _ => cases h
  | encCmd rev =>
    simp only [statelessResponse]
    split
    · nofun
    · have hlen := commandFrame_length rev op.w op.b
      exact fun _ => ⟨rfl, rfl, rfl, rfl, _, rfl, by omega, by omega⟩
  | chksum =>
    simp only [statelessResponse]
    split
    · nofun
    · exact fun _ => ⟨rfl, rfl, rfl, rfl, _, rfl⟩
  | decResp =>
    simp only [statelessResponse]
    split
    · nofun
    · cases findLast cmdHdr op.b with
      | none => nofun
      | some h =>
        have hlen := slice_length op.b (h + 4) (op.b.length - 4)
        exact fun _ => ⟨rfl, rfl, rfl, ⟨_, rfl⟩, _, rfl, by omega⟩
  | respAck =>
    simp only [statelessResponse]
    split
    · nofun
    · exact fun _ => ⟨rfl, rfl, rfl, rfl, _, rfl⟩
  | decData =>
    simp only [statelessResponse]
    split
    · nofun
    · split
      · nofun
      · split
        · nofun
        · exact fun _ => ⟨rfl, rfl, rfl, rfl, _, rfl, decodeTargets_length_le _ _,
            fun _ => decodeTargets_mem_range⟩
  | linMap =>
    simp only [statelessResponse]
    split
    · nofun
    · next horder =>
      exact fun _ => ⟨rfl, rfl, rfl, rfl, _, rfl,
        linearMap_fitsSigned (not_lt.1 horder) (sext_fitsSigned hw _) (sext_fitsSigned hw _)⟩

/-- Under the invariant's mapper clause, the output MAP.STEP moves to is a W_M-bit signed value. -/
theorem deltaStep_fitsSigned {s : State} (hc : s.cfg.Legal) (hout : s.MappersOk) {m : Nat} {k : MapConfig} {o : Int}
    (hk : s.cfg.map[m]? = some k) (ho : s.out[m]? = some o) (pres : Bool) (x : Int) :
    FitsSigned s.cfg.wM (deltaStep k.delta (mapTarget k pres x) o) := by
  obtain ⟨o', ho', hok⟩ := MappersOk.get hout hk
  cases ho.symm.trans ho'
  have ⟨_, _, _, _, _, _, hmap⟩ := hc
  have hlegal := hmap k (List.mem_of_getElem? hk)
  have ⟨hrep, _, _, _, _, hdelta⟩ := hlegal
  exact fitsSigned_of_outOk hrep (deltaStep_between hdelta (mapTarget_outOk hlegal pres x) hok)

/-- Settles O33: a stateless instruction's response has its opcode's shape, and a channel instruction gives one value
or, for a channel that does not exist, none. -/
theorem resultFieldsByInstruction : Obligations.ResultFieldsByInstruction := by
  intro i s t hs h
  obtain ⟨hc, hlive, -⟩ := hs
  cases i with
  | swaAdd ch =>
    obtain ⟨-, -, ⟨-, rfl⟩ | ⟨k, c, old, -, -, -, rfl⟩⟩ := execSwaAdd_next h
    · exact ⟨_, rfl, nofun, fun _ => ⟨rfl, rfl, rfl, rfl, rfl⟩⟩
    · exact ⟨_, rfl, fun _ => ⟨rfl, rfl, rfl, rfl, _, rfl⟩, fun hne => absurd rfl hne⟩
  | mapStep pres ch =>
    obtain ⟨-, hl, ⟨-, rfl⟩ | ⟨k, o, o2, hk, ho, rfl, rfl⟩⟩ := execMapStep_next h
    · exact ⟨_, rfl, nofun, fun _ => ⟨rfl, rfl, rfl, rfl, rfl⟩⟩
    · have hfits := deltaStep_fitsSigned hc (hlive hl).2 hk ho pres s.opX
      exact ⟨_, rfl, fun _ => ⟨rfl, rfl, rfl, rfl, _, rfl, hfits⟩, fun hne => absurd rfl hne⟩
  | _ =>
    obtain ⟨-, -, rfl⟩ := exec_stateless_next rfl h
    have ⟨_, _, ⟨hwM, _⟩, _⟩ := hc
    exact ⟨_, rfl, statelessResponse_shape rfl (by omega) s.op, (statelessResponse_status rfl s.cfg s.op).2⟩

end Sys2Proof.Machine
end

section
/-! PROOFS. The statements of 40_command_codec: what ENC.CMD, CHKSUM, DEC.RESP and RESP.ACK answer (R80 to R83), the
corner cases of the checksum (R81), and the round trip of a command frame (R84). -/

namespace Sys2Proof.Machine

/-! ### Selecting and running a stateless instruction -/

theorem decodeCtrl_eq_ok_iff_encode {c : Ctrl} {i : Instr} : decodeCtrl c = .ok i ↔ c = encode i := by
  constructor
  · exact fun h => (decodeThenEncode c i h).symm
  · rintro rfl
    exact encodeThenDecode i

theorem exec_eq_reply {i : Instr} {s : State} {r : Response} (hs : s.Ready) (hi : Stateless i = true)
    (hr : statelessResponse i s.cfg s.op = r) : exec i s = .next (s.reply r) := by
  obtain ⟨hc, hl⟩ := hs
  rw [exec_stateless hi, perform_of_ready hc hl, hr]

theorem exec_encCmd_of_fits {s : State} (rev : Bool) (hs : s.Ready) (hn : s.op.b.length ≤ 65533)
    (hmax : 12 + s.op.b.length ≤ s.cfg.bufMax) :
    exec (.encCmd rev) s =
      .next (s.reply { status := .ok, bytes := some (commandFrame rev s.op.w s.op.b) }) :=
  exec_eq_reply hs rfl (if_neg (by omega))

theorem exec_chksum_of_fits {s : State} (hs : s.Ready) (hlen : s.op.b.length ≤ s.cfg.bufMax) :
    exec .chksum s = .next (s.reply { status := .ok, byte := some (checksum s.op.a s.op.r s.op.b) }) :=
  exec_eq_reply hs rfl (if_neg (by omega))

theorem exec_decResp_of_header {s : State} {h : Nat} {p : Bytes} (hs : s.Ready)
    (hlen : s.op.b.length ≤ s.cfg.bufMax) (hh : findLast cmdHdr s.op.b = some h)
    (hp : slice s.op.b (h + 4) (s.op.b.length - 4) = p) :
    exec .decResp s = .next (s.reply { status := .ok, bytes := some p, bit := some (lenOk p) }) := by
  refine exec_eq_reply hs rfl ((if_neg (by omega)).trans ?_)
  simp only [hh, hp]

theorem exec_decResp_of_no_header {s : State} (hs : s.Ready) (hlen : s.op.b.length ≤ s.cfg.bufMax)
    (hh : findLast cmdHdr s.op.b = none) : exec .decResp s = .next (s.reply { status := .framing }) := by
  refine exec_eq_reply hs rfl ((if_neg (by omega)).trans ?_)
  rw [hh]

/-! ### Little-endian pairs (00_scope R10) -/

theorem le16_eq_mod_div (v : Nat) : le16 v = [BitVec.ofNat 8 (v % 256), BitVec.ofNat 8 (v / 256)] :=
  congrArg (· :: _) (BitVec.eq_of_toNat_eq (Nat.mod_mod v 256).symm)

theorem le16_toNat_eq_extract (w : Half) : le16 w.toNat = [w.extractLsb' 0 8, w.extractLsb' 8 8] := by
  simp [le16, BitVec.extractLsb', Nat.shiftRight_eq_div_pow]

theorem toNat_le16Value (b0 b1 : Byte) : (le16Value b0 b1).toNat = b0.toNat + 256 * b1.toNat := by
  rw [le16Value, BitVec.toNat_ofNat]
  omega

theorem toNat_le16_bytes {v : Nat} (h : v < 65536) :
    (BitVec.ofNat 8 v).toNat + 256 * (BitVec.ofNat 8 (v / 256)).toNat = v := by
  rw [BitVec.toNat_ofNat, BitVec.toNat_ofNat]
  omega

/-! ### ENC.CMD -/

/-- What stands in a command frame between its header and its footer (30_encoding R61 to R63). -/
def commandPayload (rev : Bool) (w : Half) (v : Bytes) : Bytes :=
  le16 (2 + v.length) ++ le16 w.toNat ++ (if rev then v.reverse else v)

theorem commandFrame_eq (rev : Bool) (w : Half) (v : Bytes) :
    commandFrame rev w v = cmdHdr ++ (commandPayload rev w v ++ cmdFtr) := by
  simp only [commandFrame, commandPayload, List.append_assoc]

theorem commandPayload_length (rev : Bool) (w : Half) (v : Bytes) :
    (commandPayload rev w v).length = 4 + v.length := by
  cases rev <;> simp [commandPayload] <;> omega

/-- Settles O9: ENC.CMD asks for the two bounds first, and the bytes of its frame are those of the statement. -/
theorem encCmdBuildsTheFrame : Obligations.EncCmdBuildsTheFrame := by
  refine ⟨fun c rev => ?_, ?_⟩
  · rw [decodeCtrl_eq_ok_iff_encode]
    cases rev <;> rfl
  · rintro s rev n hs rfl
    refine ⟨fun hlong => exec_eq_reply hs rfl (if_pos hlong), fun ⟨hn, hmax⟩ => ?_⟩
    rw [exec_encCmd_of_fits rev hs hn hmax, commandFrame, le16_eq_mod_div, le16_toNat_eq_extract]
    rfl

/-! ### CHKSUM -/

theorem checksum_seed (a : Byte) : BitVec.ofNat 8 (2 * a.toNat % 256) = a + a := by
  apply BitVec.eq_of_toNat_eq
  rw [BitVec.toNat_ofNat, BitVec.toNat_add]
  omega

theorem checksum_eq_foldr (a r : Byte) (m : Bytes) :
    checksum a r m = m.foldr (fun b c => b ^^^ c) ((a + a) ^^^ r) := by
  rw [checksum, checksum_seed]
  exact List.foldl_eq_foldr

theorem checksum_append_singleton (a r : Byte) (m : Bytes) (c : Byte) :
    checksum a r (m ++ [c]) = checksum a r m ^^^ c :=
  List.foldl_concat ..

theorem checksum_perm (a r : Byte) {m m' : Bytes} (h : m.Perm m') : checksum a r m = checksum a r m' := by
  rw [checksum_eq_foldr, checksum_eq_foldr]
  exact h.foldr_eq _

/-- Settles O10: CHKSUM asks for the length first; XOR being commutative, its fold may start at either end. -/
theorem chksumFoldsTheMessage : Obligations.ChksumFoldsTheMessage := by
  refine ⟨fun c => decodeCtrl_eq_ok_iff_encode, fun s hs => ?_⟩
  refine ⟨fun hlong => exec_eq_reply hs rfl (if_pos hlong), fun hlen => ?_⟩
  rw [exec_chksum_of_fits hs hlen, checksum_eq_foldr]
  rfl

/-- CHKSUM with the message `m` in the place of OP.B. -/
theorem exec_chksum_of_message {s t : State} {m : Bytes} (ht : t = { s with op := { s.op with b := m } })
    (hs : s.Ready) (hlen : m.length ≤ s.cfg.bufMax) :
    exec .chksum t = .next (t.reply { status := .ok, byte := some (checksum s.op.a s.op.r m) }) := by
  subst ht
  exact exec_chksum_of_fits (s := { s with op := { s.op with b := m } }) hs hlen

/-- Settles O11: the appended byte is the last to be folded and cancels the fold before it, and a permuted message
folds to the same byte. -/
theorem appendedChecksumFoldsToZero : Obligations.AppendedChecksumFoldsToZero := by
  intro s hs hlen
  refine ⟨checksum s.op.a s.op.r s.op.b, exec_chksum_of_fits hs (by omega), fun t ht => ?_, fun t m hm ht => ?_⟩
  · have hzero : checksum s.op.a s.op.r (s.op.b ++ [checksum s.op.a s.op.r s.op.b]) = 0x00#8 := by
      rw [checksum_append_singleton, BitVec.xor_self]
    rw [← hzero]
    exact exec_chksum_of_message ht hs (by rwa [List.length_append])
  · rw [← checksum_perm s.op.a s.op.r hm]
    exact exec_chksum_of_message ht hs (by rw [hm.length_eq]; omega)

/-! ### DEC.RESP -/

theorem le_length_of_occursAt {p b : Bytes} {i : Nat} (hp : p ≠ []) (h : OccursAt p b i) : i ≤ b.length := by
  by_contra hlt
  rw [OccursAt, List.drop_eq_nil_of_le (by omega), List.take_nil] at h
  exact hp h.symm

theorem findLast_eq_none {p b : Bytes} (h : ∀ i, ¬ OccursAt p b i) : findLast p b = none := by
  have hspec := findLast_spec p b
  cases hf : findLast p b with
  | none => rfl
  | some k =>
    rw [hf] at hspec
    exact absurd hspec.1 (h k)

/-- The place of an occurrence that none follows is the one `findLast` answers. -/
theorem findLast_eq_some {p b : Bytes} {h : Nat} (hp : p ≠ []) (hocc : OccursAt p b h)
    (hlast : ∀ i, h < i → ¬ OccursAt p b i) : findLast p b = some h := by
  have hspec := findLast_spec p b
  have hle := le_length_of_occursAt hp hocc
  cases hf : findLast p b with
  | none =>
    rw [hf] at hspec
    exact absurd hocc (hspec h hle)
  | some k =>
    rw [hf] at hspec
    obtain ⟨hk, hafter⟩ := hspec
    have hkh : k ≤ h := Nat.le_of_not_lt fun hlt => hlast k hlt hk
    have hhk : h ≤ k := Nat.le_of_not_lt fun hlt => hafter h hlt hle hocc
    rw [Nat.le_antisymm hkh hhk]

/-- LENOK, with the length field read out and the subtraction moved to the other side. -/
theorem lenOk_eq (p : Bytes) : lenOk p =
    decide (2 ≤ p.length ∧ (p.getD 0 0).toNat + 256 * (p.getD 1 0).toNat + 2 = p.length) := by
  refine decide_eq_decide.2 (and_congr_right fun h => ?_)
  rw [payloadLength, le16At, toNat_le16Value]
  exact eq_tsub_iff_add_eq_of_le h

/-- Settles O12: DEC.RESP asks for the length, then for the last header, and cuts the payload after it. -/
theorem decRespCutsAfterTheLastHeader : Obligations.DecRespCutsAfterTheLastHeader := by
  refine ⟨fun c => decodeCtrl_eq_ok_iff_encode, ?_⟩
  rintro s raw hs rfl
  refine ⟨fun hlong => exec_eq_reply hs rfl (if_pos hlong), fun hlen hnone => ?_, ?_⟩
  · exact exec_decResp_of_no_header hs hlen (findLast_eq_none hnone)
  · rintro h p hlen hocc hlast hp
    have hh : findLast cmdHdr s.op.b = some h := findLast_eq_some (by decide) hocc hlast
    have hslice := (slice_eq_drop_take s.op.b (h + 4) (s.op.b.length - 4)).trans hp.symm
    rw [← lenOk_eq]
    exact exec_decResp_of_header hs hlen hh hslice

/-! ### RESP.ACK -/

theorem le16Value_eq_zero_iff {b0 b1 : Byte} : le16Value b0 b1 = 0#16 ↔ b0 = 0#8 ∧ b1 = 0#8 := by
  simp only [← BitVec.toNat_inj, toNat_le16Value, BitVec.toNat_ofNat]
  omega

theorem getElem?_eq_some_iff_byteAt {b : Bytes} {i : Nat} (h : i < b.length) (v : Byte) :
    b[i]? = some v ↔ byteAt b i = v := by
  rw [byteAt, List.getD_eq_getElem _ _ h, List.getElem?_eq_getElem h, Option.some.injEq]

theorem ackBit_eq (f : Bytes) :
    ackBit f = decide (6 ≤ f.length ∧ f[4]? = some 0x00#8 ∧ f[5]? = some 0x00#8) := by
  refine decide_eq_decide.2 (and_congr_right fun h => ?_)
  rw [getElem?_eq_some_iff_byteAt (by omega), getElem?_eq_some_iff_byteAt (by omega)]
  exact le16Value_eq_zero_iff

/-- Settles O13: RESP.ACK asks for the length first, and a little-endian field is 0 when both its bytes are. -/
theorem respAckTestsTheField : Obligations.RespAckTestsTheField := by
  refine ⟨fun c => decodeCtrl_eq_ok_iff_encode, fun s hs => ?_⟩
  refine ⟨fun hlong => exec_eq_reply hs rfl (if_pos hlong), fun hlen => ?_⟩
  rw [← ackBit_eq]
  exact exec_eq_reply hs rfl (if_neg (by omega))

/-! ### The round trip of a command frame -/

/-- Cutting a frame after its header and before its last four bytes leaves its payload. -/
theorem slice_commandFrame (rev : Bool) (w : Half) (v : Bytes) :
    slice (commandFrame rev w v) 4 ((commandFrame rev w v).length - 4) = commandPayload rev w v := by
  have hlen : (commandFrame rev w v).length - 4 - 4 = (commandPayload rev w v).length := by
    rw [commandFrame_length, commandPayload_length]
    omega
  rw [slice, hlen, commandFrame_eq]
  exact List.take_left

theorem lenOk_commandPayload (rev : Bool) (w : Half) {v : Bytes} (h : v.length ≤ 65533) :
    lenOk (commandPayload rev w v) = true := by
  rw [lenOk_eq, commandPayload_length]
  have hfield := toNat_le16_bytes (v := 2 + v.length) (by omega)
  exact decide_eq_true ⟨by omega, (congrArg (· + 2) hfield).trans (by omega)⟩

/-- Settles O14: the header is found at offset 0 alone, so the cut leaves the payload of the frame, whose two pairs of
bytes are its length field and its word. -/
theorem commandRoundTrip : Obligations.CommandRoundTrip := by
  intro s t rev f hs ht hcfg hn hmax hans honly htb
  have hframe : f = commandFrame rev s.op.w s.op.b := by
    rw [exec_encCmd_of_fits rev hs hn hmax] at hans
    simpa [answer?] using hans.symm
  obtain rfl := hframe
  have hlen : t.op.b.length ≤ t.cfg.bufMax := by rwa [htb, commandFrame_length, hcfg]
  have hocc : OccursAt cmdHdr (commandFrame rev s.op.w s.op.b) 0 := by
    rw [commandFrame_eq]
    exact List.take_left
  have hh : findLast cmdHdr t.op.b = some 0 := by
    rw [htb]
    exact findLast_eq_some (by decide) hocc fun i hi ho => hi.ne' (honly i ho)
  have hexec := exec_decResp_of_header ht hlen hh (htb ▸ slice_commandFrame rev s.op.w s.op.b)
  rw [lenOk_commandPayload rev s.op.w hn] at hexec
  exact ⟨commandPayload rev s.op.w s.op.b, hexec, rfl, toNat_le16_bytes s.op.w.isLt⟩

end Sys2Proof.Machine
end

section
/-! PROOFS. The statements of 41_data_decoder: what DEC.DATA answers (R110, R111), and the bytes of its operand that do
not change the answer. -/

namespace Sys2Proof.Machine

/-! ### What DEC.DATA answers -/

theorem slice_header {b : Bytes} (h : 30 ≤ b.length) :
    slice b (b.length - 30) (b.length - 26) = (b.drop (b.length - 30)).take 4 := by
  rw [slice, show b.length - 26 - (b.length - 30) = 4 by omega]

theorem exec_decData_of_no_header {s : State} (hs : s.Ready) (hlen : s.op.b.length ≤ s.cfg.bufMax)
    (h : s.op.b.length < 30 ∨ (s.op.b.drop (s.op.b.length - 30)).take 4 ≠ dataHdr) :
    exec .decData s = .next (s.reply { status := .anomaly }) := by
  refine exec_eq_reply hs rfl ((if_neg (by omega)).trans ?_)
  obtain hshort | hlong := Nat.lt_or_ge s.op.b.length 30
  · exact if_pos hshort
  · have hne := h.resolve_left hlong.not_gt
    rw [← slice_header hlong] at hne
    exact (if_neg hlong.not_gt).trans (if_pos hne)

theorem exec_decData_of_header {s : State} (hs : s.Ready) (hlen : s.op.b.length ≤ s.cfg.bufMax)
    (h30 : 30 ≤ s.op.b.length) (h : (s.op.b.drop (s.op.b.length - 30)).take 4 = dataHdr) :
    exec .decData s = .next (s.reply
      { status := .ok, tgt := some (decodeTargets s.cfg.osignHighPos s.op.b) }) := by
  rw [← slice_header h30] at h
  exact exec_eq_reply hs rfl
    (((if_neg (by omega)).trans (if_neg h30.not_gt)).trans (if_neg (not_not_intro h)))

/-! ### The list of targets -/

theorem decodeTargets_pairwise_slot_lt (highPos : Bool) (r : Bytes) :
    (decodeTargets highPos r).Pairwise fun t u => t.slot < u.slot := by
  have hslots : ([0, 1, 2] : List (Fin 3)).Pairwise (· < ·) := by decide
  have hmap : (([0, 1, 2] : List (Fin 3)).map (decodeSlot highPos r)).Pairwise fun t u => t.slot < u.slot :=
    List.pairwise_map.2 hslots
  exact hmap.filter _

theorem mem_decodeTargets_iff {highPos : Bool} {r : Bytes} {t : Target} :
    t ∈ decodeTargets highPos r ↔ t = decodeSlot highPos r t.slot ∧ ¬ (t.x = 0 ∧ t.y = 0) := by
  have hall : ∀ k : Fin 3, k ∈ ([0, 1, 2] : List (Fin 3)) := by decide
  rw [decodeTargets, List.mem_filter, List.mem_map, Target.absent, Bool.not_eq_true', decide_eq_false_iff_not]
  refine and_congr_left fun _ => ⟨?_, fun h => ⟨t.slot, hall _, h.symm⟩⟩
  rintro ⟨k, -, rfl⟩
  rfl

theorem le16At_eq_append (r : Bytes) (i : Nat) : le16At r i = r.getD (i + 1) 0 ++ r.getD i 0 :=
  le16Value_eq_append ..

/-- A record is the one decoded from its slot when its four fields are read at the slot's place (30_encoding R66,
R67). -/
theorem eq_decodeSlot_iff {highPos : Bool} {r : Bytes} {t : Target} {b : Nat}
    (hb : b = r.length - 26 + 8 * t.slot.val) :
    t = decodeSlot highPos r t.slot ↔
      t.x = osign highPos (r.getD (b + 1) 0 ++ r.getD b 0) ∧
      t.y = osign highPos (r.getD (b + 3) 0 ++ r.getD (b + 2) 0) ∧
      t.speed = r.getD (b + 5) 0 ++ r.getD (b + 4) 0 ∧
      t.res = r.getD (b + 7) 0 ++ r.getD (b + 6) 0 := by
  obtain ⟨slot, x, y, speed, res⟩ := t
  subst hb
  simp only [decodeSlot, le16At_eq_append, Target.mk.injEq, true_and]

/-- Settles O15: DEC.DATA asks for the length, then for the header, and keeps in slot order the records that are
decoded from their slots and have a coordinate other than 0. -/
theorem decDataReportsTheTargets : Obligations.DecDataReportsTheTargets := by
  refine ⟨fun c => decodeCtrl_eq_ok_iff_encode, ?_⟩
  rintro s raw hs rfl
  refine ⟨fun hlong => exec_eq_reply hs rfl (if_pos hlong), fun hlen h => exec_decData_of_no_header hs hlen h,
    fun hlen h30 h => ?_⟩
  refine ⟨decodeTargets s.cfg.osignHighPos s.op.b, exec_decData_of_header hs hlen h30 h,
    decodeTargets_pairwise_slot_lt _ _, fun t b hb => ?_⟩
  rw [mem_decodeTargets_iff, eq_decodeSlot_iff hb]
  simp only [and_assoc]

/-! ### The bytes that DEC.DATA does not read

A chunk is any bytes, then the 28 bytes of a frame before its footer, then the two bytes in the footer's place. -/

/-- DEC.DATA's response to every chunk of the frame (41_data_decoder R110); `exec_decData_chunk` says so. -/
def frameResponse (highPos : Bool) (frame : Bytes) : Response :=
  if frame.take 4 = dataHdr then { status := .ok, tgt := some (decodeTargets highPos (frame ++ dataFtr)) }
  else { status := .anomaly }

theorem byteAt_chunk (pre ftr : Bytes) {frame : Bytes} {i : Nat} (h : i < frame.length) :
    byteAt (pre ++ frame ++ ftr) (pre.length + i) = byteAt frame i := by
  rw [byteAt, byteAt, List.append_assoc, List.getD_append_right _ _ _ _ (Nat.le_add_right ..),
    Nat.add_sub_cancel_left, List.getD_append _ _ _ _ h]

theorem le16At_chunk (pre ftr : Bytes) {frame : Bytes} {i : Nat} (h : i + 1 < frame.length) :
    le16At (pre ++ frame ++ ftr) (pre.length + i) = le16At frame i := by
  rw [le16At, le16At, byteAt_chunk pre ftr (by omega), Nat.add_assoc, byteAt_chunk pre ftr h]

section
variable {frame ftr : Bytes} (hframe : frame.length = 28) (hftr : ftr.length = 2)
include hframe hftr

theorem length_chunk (pre : Bytes) : (pre ++ frame ++ ftr).length = pre.length + 30 := by
  rw [List.length_append, List.length_append, hframe, hftr]

theorem header_chunk (pre : Bytes) :
    ((pre ++ frame ++ ftr).drop ((pre ++ frame ++ ftr).length - 30)).take 4 = frame.take 4 := by
  rw [length_chunk hframe hftr, Nat.add_sub_cancel, List.append_assoc, List.drop_left,
    List.take_append_of_le_length (by omega)]

theorem decodeSlot_chunk (highPos : Bool) (pre : Bytes) (k : Fin 3) :
    decodeSlot highPos (pre ++ frame ++ ftr) k =
      { slot := k
        x := osign highPos (le16At frame (4 + 8 * k.val))
        y := osign highPos (le16At frame (4 + 8 * k.val + 2))
        speed := le16At frame (4 + 8 * k.val + 4)
        res := le16At frame (4 + 8 * k.val + 6) } := by
  have hk := k.isLt
  have hbase : (pre ++ frame ++ ftr).length - 26 + 8 * k.val = pre.length + (4 + 8 * k.val) := by
    rw [length_chunk hframe hftr]
    omega
  have hread (j : Nat) (hj : j ≤ 6) : le16At (pre ++ frame ++ ftr) (pre.length + (4 + 8 * k.val) + j) =
      le16At frame (4 + 8 * k.val + j) := by
    rw [Nat.add_assoc]
    exact le16At_chunk pre ftr (by omega)
  rw [decodeSlot, hbase, hread 2 (by omega), hread 4 (by omega), hread 6 (by omega),
    le16At_chunk pre ftr (by omega)]

/-- A chunk has the targets of its frame followed by DATA_FTR (30_encoding R60) alone. -/
theorem decodeTargets_chunk (highPos : Bool) (pre : Bytes) :
    decodeTargets highPos (pre ++ frame ++ ftr) = decodeTargets highPos (frame ++ dataFtr) := by
  have hslot : decodeSlot highPos (pre ++ frame ++ ftr) = decodeSlot highPos (frame ++ dataFtr) :=
    funext fun k => (decodeSlot_chunk hframe hftr highPos pre k).trans
      (decodeSlot_chunk hframe (ftr := dataFtr) rfl highPos [] k).symm
  rw [decodeTargets, decodeTargets, hslot]

theorem exec_decData_chunk {s : State} {pre : Bytes} (hs : s.Ready) (hb : s.op.b = pre ++ frame ++ ftr)
    (hmax : pre.length + 30 ≤ s.cfg.bufMax) :
    exec .decData s = .next (s.reply (frameResponse s.cfg.osignHighPos frame)) := by
  have hlen : s.op.b.length = pre.length + 30 := by rw [hb, length_chunk hframe hftr]
  have hhdr : (s.op.b.drop (s.op.b.length - 30)).take 4 = frame.take 4 := by rw [hb, header_chunk hframe hftr]
  by_cases h : frame.take 4 = dataHdr
  · rw [exec_decData_of_header hs (by omega) (by omega) (hhdr.trans h), hb, decodeTargets_chunk hframe hftr,
      frameResponse, if_pos h]
  · rw [exec_decData_of_no_header hs (by omega) (.inr (hhdr ▸ h)), frameResponse, if_neg h]

end

/-- Settles O17: the response to a chunk is a function of the polarity and the 28 bytes of the frame. -/
theorem decDataIgnoresLeftoversAndFooter : Obligations.DecDataIgnoresLeftoversAndFooter := by
  rintro s t pre pre' frame ftr ftr' hs hframe hftr hftr' hb rfl hmax hmax'
  exact ⟨frameResponse s.cfg.osignHighPos frame, exec_decData_chunk hframe hftr hs hb hmax,
    exec_decData_chunk (s := { s with op := { s.op with b := pre' ++ frame ++ ftr' } }) hframe hftr' hs rfl hmax'⟩

end Sys2Proof.Machine
end

section
/-! PROOFS. The statements of 42_window_averager: what SWA.ADD does and leaves (R130), the bounds of its values
(R27, R130), and the reference average that the results since a reset agree with (R132). -/

namespace Sys2Proof.Machine

/-! ### Bounds of the sum and of the average -/

/-- The sum of N values of W_S bits lies in N times their range (10_state R27). -/
theorem ChannelOk.sum_mem {w : Nat} {k : SwaConfig} {c : SwaChannel} (h : ChannelOk w k c) :
    (k.n : Int) * -(2 ^ (w - 1)) ≤ c.sum ∧ c.sum ≤ (k.n : Int) * (2 ^ (w - 1) - 1) := by
  obtain ⟨hlen, -, hsum, hfits⟩ := h
  rw [hsum, ← hlen, ← nsmul_eq_mul, ← nsmul_eq_mul]
  exact ⟨List.card_nsmul_le_sum _ _ fun v hv => (hfits v hv).1,
    List.sum_le_card_nsmul _ _ fun v hv => (hfits v hv).2⟩

/-- Rounding does not leave a range with integer ends: it errs by at most half the divisor. -/
theorem abs_rne_le {a b m : Int} (hb : 0 < b) (h : |a| ≤ m * b) : |rne a b| ≤ m := by
  obtain ⟨hnear, -⟩ := rneIsNearestEven a b hb
  obtain ⟨hnear1, hnear2⟩ := abs_le.1 hnear
  obtain ⟨ha1, ha2⟩ := abs_le.1 h
  have hup : 2 * rne a b ≤ 2 * m + 1 := le_of_mul_le_mul_right (by linarith) hb
  have hdown : -(2 * m + 1) ≤ 2 * rne a b := le_of_mul_le_mul_right (by linarith) hb
  exact abs_le.2 ⟨by omega, by omega⟩

theorem ChannelOk.abs_windowAverage_le {w : Nat} {k : SwaConfig} {c : SwaChannel} (h : ChannelOk w k c)
    (hn : 1 ≤ k.n) : |windowAverage k c.sum| ≤ 2 ^ (w - 1) * 10 ^ k.p := by
  have hsum : |c.sum| ≤ k.n * 2 ^ (w - 1) := by
    obtain ⟨hlo, hhi⟩ := h.sum_mem
    exact abs_le.2 ⟨by linarith, by linarith⟩
  have hscale : (0 : Int) ≤ 10 ^ k.p := by positivity
  apply abs_rne_le (by omega)
  calc |c.sum * 10 ^ k.p| = |c.sum| * 10 ^ k.p := by rw [abs_mul, abs_of_nonneg hscale]
    _ ≤ k.n * 2 ^ (w - 1) * 10 ^ k.p := by gcongr
    _ = 2 ^ (w - 1) * 10 ^ k.p * k.n := by ring

/-! ### One SWA.ADD -/

theorem setSwa_swa_getElem?_self {s : State} {c : Nat} {ch : SwaChannel} (h : s.swa[c]? = some ch)
    (ch' : SwaChannel) : (s.setSwa c ch').swa[c]? = some ch' :=
  List.getElem?_set_self (List.getElem?_eq_some_iff.1 h).1

/-- Under the invariant, SWA.ADD on a channel of the configuration updates its window, and the channel agrees with
its configuration before and after. -/
theorem exec_swaAdd_of_inv {s : State} {ch : BitVec 8} {k : SwaConfig} (hs : s.Inv) (hl : s.live = true)
    (hk : s.cfg.swa[ch.toNat]? = some k) :
    1 ≤ k.n ∧ ∃ (c : SwaChannel) (old : Int), s.swa[ch.toNat]? = some c ∧ c.buf[c.cur]? = some old ∧
      ChannelOk s.cfg.wS k c ∧ ChannelOk s.cfg.wS k (c.add k old s.opS) ∧
      exec (.swaAdd ch) s = .next ((s.setSwa ch.toNat (c.add k old s.opS)).reply
        { status := .ok, val := some (windowAverage k (c.add k old s.opS).sum) }) := by
  obtain ⟨hc, hlive, -⟩ := hs
  have ⟨_, ⟨hwS, _⟩, _, _, _, hcapacity, _⟩ := hc
  have hn := hcapacity k (List.mem_of_getElem? hk)
  obtain ⟨c, hch, hok⟩ := AveragersOk.get (hlive hl).1 hk
  have ⟨hlen, hcur, _⟩ := hok
  have hold := List.getElem?_eq_getElem (hlen.symm ▸ hcur)
  exact ⟨hn, c, _, hch, hold, hok, hok.add (sext_fitsSigned (by omega) s.op.s) hold hn,
    execSwaAdd_channel ⟨hc, hl⟩ hk hch hold⟩

/-- Settles O22: SWA.ADD replies, and before that it may have written one entry of its channel's buffer. -/
theorem swaAddFrame : Obligations.SwaAddFrame := by
  intro s t ch h
  obtain ⟨-, -, ⟨-, rfl⟩ | ⟨k, c, old, -, hch, -, rfl⟩⟩ := execSwaAdd_next h
  · refine ⟨rfl, rfl, rfl, rfl, rfl, ⟨_, rfl⟩, fun _ _ => rfl, fun c c' i hc hc' _ => ?_⟩
    cases hc.symm.trans hc'
    rfl
  · refine ⟨rfl, rfl, rfl, rfl, rfl, ⟨_, rfl⟩, fun _ hne => List.getElem?_set_ne hne.symm,
      fun c₁ c' i hc hc' hi => ?_⟩
    cases hch.symm.trans hc
    cases (setSwa_swa_getElem?_self hch _).symm.trans hc'
    exact List.getElem?_set_ne hi.symm

/-- Settles O18: the word is the number of its fields, and the new sum is that of the new buffer because the
invariant says so of the channel before and after. -/
theorem swaAddUpdatesTheWindow : Obligations.SwaAddUpdatesTheWindow := by
  refine ⟨fun c ch => ?_, fun s ch hs hl => ⟨fun hch => ?_, fun k hk => ?_⟩⟩
  · have hword : encode (.swaAdd ch) = BitVec.ofNat 32 (0x10 + 256 * ch.toNat) := ctrlWord_eq_ofNat _ ch false false
    rw [decodeCtrl_eq_ok_iff_encode, hword]
  · exact execSwaAdd_badChannel ⟨hs.1, hl⟩ (List.getElem?_eq_none hch)
  · obtain ⟨hn, c, old, hch, hold, -, hok, hexec⟩ := exec_swaAdd_of_inv hs hl hk
    have ⟨_, _, hsum, _⟩ := hok
    exact ⟨c, old, s.opS, _, hch, hold, rfl, rfl, hsum, hok.abs_windowAverage_le hn, hexec⟩

/-- Settles O20: the channel agrees with its configuration after the request too. -/
theorem swaValuesStayBounded : Obligations.SwaValuesStayBounded := by
  intro s t ch k r q hs hk h hr hq
  obtain ⟨-, hl, -⟩ := execSwaAdd_next h
  obtain ⟨hn, c, old, hch, -, -, hok, hexec⟩ := exec_swaAdd_of_inv hs hl hk
  cases h.symm.trans hexec
  cases List.append_cancel_left hr
  cases hq
  exact ⟨hok.abs_windowAverage_le hn, _, setSwa_swa_getElem?_self hch _, hok.sum_mem⟩

/-! ### The window a channel holds -/

/-- The last `n` of the samples, oldest first, with zeros in front where there are fewer (R132). -/
def paddedWindow (n : Nat) (samples : List Int) : List Int := lastN n (List.replicate n 0 ++ samples)

theorem paddedWindow_eq_drop (n : Nat) (l : List Int) :
    paddedWindow n l = (List.replicate n 0 ++ l).drop l.length := by
  simp [paddedWindow, lastN]

theorem paddedWindow_nil (n : Nat) : paddedWindow n [] = List.replicate n 0 := by simp [paddedWindow_eq_drop]

/-- A further sample drops the oldest entry of the window. -/
theorem paddedWindow_append_singleton {n : Nat} (hn : 1 ≤ n) (l : List Int) (v : Int) :
    paddedWindow n (l ++ [v]) = (paddedWindow n l).tail ++ [v] := by
  have hle : l.length + 1 ≤ (List.replicate n 0 ++ l).length := by simp; omega
  rw [paddedWindow_eq_drop, paddedWindow_eq_drop, List.tail_drop, ← List.append_assoc, List.length_append,
    List.length_singleton, List.drop_append_of_le_length hle]

/-- The zeros in front add nothing. -/
theorem sum_paddedWindow (n : Nat) (l : List Int) : (paddedWindow n l).sum = (lastN n l).sum := by
  rw [paddedWindow_eq_drop, List.drop_append, List.drop_replicate, List.length_replicate, List.sum_append,
    List.sum_replicate, smul_zero, zero_add, lastN]

/-- The buffer read from the cursor on: oldest entry first. -/
def SwaChannel.window (c : SwaChannel) : List Int := c.buf.rotate c.cur

/-- Overwriting the first entry of a rotated list and rotating past it moves the entry to the end. -/
theorem rotate_succ_set {l : List Int} {i : Nat} (h : i < l.length) (v : Int) :
    (l.set i v).rotate (i + 1) = (l.rotate i).tail ++ [v] := by
  obtain ⟨before, after, hl, rfl, hset⟩ := List.exists_of_set (a' := v) h
  have hold : l.rotate before.length = l[before.length] :: after ++ before := by
    conv_lhs => rw [hl]
    exact List.rotate_append_length_eq ..
  calc (l.set before.length v).rotate (before.length + 1)
      = ((before ++ [v]) ++ after).rotate (before ++ [v]).length := by simp [hset]
    _ = after ++ (before ++ [v]) := List.rotate_append_length_eq ..
    _ = (l.rotate before.length).tail ++ [v] := by rw [hold, List.cons_append, List.tail_cons, List.append_assoc]

/-- Evict, write, advance and add drops the oldest entry of the window and appends the sample (R130). -/
theorem ChannelOk.window_add {w : Nat} {k : SwaConfig} {c : SwaChannel} (h : ChannelOk w k c) (old v : Int) :
    (c.add k old v).window = c.window.tail ++ [v] := by
  obtain ⟨hlen, hcur, -⟩ := h
  have hn : k.n = (c.buf.set c.cur v).length := by rw [List.length_set, hlen]
  rw [SwaChannel.window, SwaChannel.add, hn, List.rotate_mod, rotate_succ_set (by omega), SwaChannel.window]

/-- The channel holds the window of these samples, and its cursor counts them modulo N. -/
def SwaChannel.Holds (k : SwaConfig) (samples : List Int) (c : SwaChannel) : Prop :=
  c.window = paddedWindow k.n samples ∧ c.cur = samples.length % k.n

theorem holds_afterReset (k : SwaConfig) : (SwaChannel.afterReset k).Holds k [] :=
  ⟨(List.rotate_zero _).trans (paddedWindow_nil k.n).symm, (Nat.zero_mod k.n).symm⟩

theorem SwaChannel.Holds.add {w : Nat} {k : SwaConfig} {l : List Int} {c : SwaChannel} (h : c.Holds k l)
    (hok : ChannelOk w k c) (hn : 1 ≤ k.n) (old v : Int) : (c.add k old v).Holds k (l ++ [v]) := by
  obtain ⟨hwindow, hcur⟩ := h
  refine ⟨?_, ?_⟩
  · rw [hok.window_add, hwindow, paddedWindow_append_singleton hn]
  · rw [SwaChannel.add, hcur, Nat.mod_add_mod, List.length_append, List.length_singleton]

/-- The sum of the buffer is the sum of the last N samples: rotating keeps it. -/
theorem SwaChannel.Holds.sum_eq {w : Nat} {k : SwaConfig} {l : List Int} {c : SwaChannel} (h : c.Holds k l)
    (hok : ChannelOk w k c) : c.sum = (lastN k.n l).sum := by
  obtain ⟨-, -, hsum, -⟩ := hok
  obtain ⟨hwindow, -⟩ := h
  rw [hsum, ← sum_paddedWindow, ← hwindow]
  exact (List.rotate_perm c.buf c.cur).sum_eq.symm

/-! ### The samples of a run -/

theorem sampleOf_eq_some_iff {cfg : Config} {c : Nat} {r : Request} {v : Int} :
    sampleOf cfg c r = some v ↔
      ∃ ch : BitVec 8, decodeCtrl r.ctrl = .ok (.swaAdd ch) ∧ ch.toNat = c ∧ sext cfg.wS r.op.s = v := by
  unfold sampleOf
  split
  · next ch hd => simp [hd]
  · next hne => simpa using fun ch hd => absurd hd (hne ch)

/-- A request that gives the channel no sample leaves it alone. -/
theorem runCtrl_swa_of_no_sample {s t : State} {r : Request} {rest : List Input} {c : Nat}
    (hr : sampleOf s.cfg c r = none) (h : runCtrl r.ctrl (s.accept r rest) = .next t) : t.swa[c]? = s.swa[c]? := by
  obtain ⟨i, hd, hi⟩ | ⟨st, -, -, -, rfl⟩ := runCtrl_next h
  · cases i with
    | swaAdd ch =>
      have hne : c ≠ ch.toNat := fun hc => by
        have hsome := (sampleOf_eq_some_iff (cfg := s.cfg)).2 ⟨ch, hd, hc.symm, rfl⟩
        cases hr.symm.trans hsome
      obtain ⟨-, -, -, -, -, -, hother, -⟩ := swaAddFrame _ _ _ hi
      exact hother c hne
    | mapStep pres ch =>
      obtain ⟨-, -, ⟨-, rfl⟩ | ⟨k, o, o2, -, -, -, rfl⟩⟩ := execMapStep_next hi <;> rfl
    | _ =>
      obtain ⟨-, -, rfl⟩ := exec_stateless_next rfl hi
      rfl
  · rfl

/-- What the run keeps: the invariant, the configuration, and that channel `c` holds the samples given so far. -/
structure State.Averaging (cfg : Config) (c : Nat) (k : SwaConfig) (samples : List Int) (s : State) : Prop where
  inv : s.Inv
  live : s.live = true
  cfg_eq : s.cfg = cfg
  holds : ∃ ch, s.swa[c]? = some ch ∧ ch.Holds k samples

section
variable {cfg : Config} {c : Nat} {k : SwaConfig} {l : List Int} {v : Int}
variable {s : State} {r : Request} {rest : List Input}

/-- A reset leaves the channel holding no sample. -/
theorem step_reset_averaging (hc : s.cfg.Legal) (hk : s.cfg.swa[c]? = some k) (hi : s.inputs = .reset :: rest) :
    ∃ t, step s = .next t ∧ t.inputs = rest ∧ t.Averaging s.cfg c k [] := by
  have hstep : step s = .next { s with inputs := rest }.applyReset := by
    rw [step, runNext, if_pos hc, hi]
    rfl
  exact ⟨_, hstep, rfl, applyReset_inv (s := { s with inputs := rest }) hc, rfl, rfl, _, by simp [hk],
    holds_afterReset k⟩

/-- A sample is answered with the average of the last N, this one included, and the channel holds it. -/
theorem State.Averaging.step_sample (h : s.Averaging cfg c k l) (hk : cfg.swa[c]? = some k)
    (hi : s.inputs = .request r :: rest) (hr : sampleOf cfg c r = some v) :
    ∃ t, step s = .next t ∧ t.inputs = rest ∧ t.Averaging cfg c k (l ++ [v]) ∧
      t.responses.getLast? = some
        { status := .ok, val := some (rne (10 ^ k.p * (lastN k.n (l ++ [v])).sum) k.n) } := by
  obtain ⟨hinv, hl, rfl, c₀, hc₀, hholds⟩ := h
  obtain ⟨ch, hd, rfl, rfl⟩ := sampleOf_eq_some_iff.1 hr
  obtain ⟨hn, c₁, old, hch, -, hok, hok', hexec⟩ := exec_swaAdd_of_inv (s := s.accept r rest) hinv hl hk
  cases hc₀.symm.trans hch
  have hstep := (step_of_decode_ok hinv.1 hi hd).trans hexec
  have hholds' := hholds.add hok hn old (s.accept r rest).opS
  have hinv' := everyStepKeepsTheInvariant _ _ hinv hstep
  refine ⟨_, hstep, rfl, ⟨hinv', hl, rfl, _, setSwa_swa_getElem?_self hch _, hholds'⟩, ?_⟩
  rw [State.reply_responses, List.getLast?_concat, windowAverage, hholds'.sum_eq hok', Int.mul_comm]
  rfl

/-- A request gives the channel its sample, if it has one. -/
theorem State.Averaging.step_request (h : s.Averaging cfg c k l) (hk : cfg.swa[c]? = some k)
    (hi : s.inputs = .request r :: rest) :
    ∃ t, step s = .next t ∧ t.inputs = rest ∧ t.Averaging cfg c k (l ++ (sampleOf cfg c r).toList) := by
  cases hr : sampleOf cfg c r with
  | some v =>
    obtain ⟨t, hstep, hti, ht, -⟩ := h.step_sample hk hi hr
    exact ⟨t, hstep, hti, ht⟩
  | none =>
    obtain ⟨hinv, hl, rfl, ch, hch, hholds⟩ := h
    obtain ⟨t, q, hstep, htinv, htl, hti, -⟩ := step_answers_request hinv hl hi
    have hswa := runCtrl_swa_of_no_sample hr ((step_of_request hinv.1 hi).symm.trans hstep)
    have hcfg := (configurationAndLiveAreNotWritten.1 s t hstep).1
    exact ⟨t, hstep, hti, htinv, htl, hcfg, ch, hswa.trans hch, (List.append_nil l).symm ▸ hholds⟩

/-- By induction on the requests: each gives the channel its sample, if it has one. -/
theorem State.Averaging.stepN_requests {rs : List Request} (h : s.Averaging cfg c k l) (hk : cfg.swa[c]? = some k)
    (hi : s.inputs = rs.map Input.request ++ rest) :
    ∃ t, stepN rs.length s = .next t ∧ t.inputs = rest ∧ t.Averaging cfg c k (l ++ samplesOf cfg c rs) := by
  induction rs generalizing s l with
  | nil => exact ⟨s, rfl, hi, (List.append_nil l).symm ▸ h⟩
  | cons r rs ih =>
    obtain ⟨u, hstep, hui, hu⟩ := h.step_request hk hi
    obtain ⟨t, hrun, hti, ht⟩ := ih hu hui
    have hsamples : l ++ (sampleOf cfg c r).toList ++ samplesOf cfg c rs = l ++ samplesOf cfg c (r :: rs) := by
      rw [List.append_assoc, samplesOf, samplesOf, List.filterMap_cons]
      cases sampleOf cfg c r <;> rfl
    exact ⟨t, (stepN_succ_of_next _ hstep).trans hrun, hti, hsamples ▸ ht⟩

end

/-- Settles O21: reset leaves the channel holding no sample, the run of `rs` the samples of `rs`, and the last step
answers from the window that the last sample completes. -/
theorem averagerMatchesTheReference : Obligations.AveragerMatchesTheReference := by
  intro s rest rs r c k v hc hk hr hi
  rw [List.map_append, List.append_assoc] at hi
  obtain ⟨s', hreset, hi', hs'⟩ := step_reset_averaging hc hk hi
  obtain ⟨u, hrun, hui, hu⟩ := hs'.stepN_requests hk hi'
  obtain ⟨t, hlast, -, ⟨-, -, -, ch, hch, -, hcur⟩, hanswer⟩ := hu.step_sample hk hui hr
  have hsamples : samplesOf s.cfg c (rs ++ [r]) = [] ++ samplesOf s.cfg c rs ++ [v] := by
    simp [samplesOf, hr]
  rw [hsamples]
  refine ⟨t, ch, ?_, hanswer, hch, hcur⟩
  calc stepN (rs.length + 2) s = stepN (rs.length + 1) _ := stepN_succ_of_next _ hreset
    _ = stepN 1 u := stepN_add 1 hrun
    _ = .next t := stepN_succ_of_next 0 hlast

end Sys2Proof.Machine
end

section
/-! PROOFS. The statements of 43_mapper: what LINMAP answers and between which ends (R150, R151), what MAP.STEP does and
leaves (R152, R154), and the steps in which successive MAP.STEP requests reach a target (R153). -/

namespace Sys2Proof.Machine

/-! ### LINMAP -/

/-- The linear map with Lean's own operations (R150). -/
theorem linearMap_eq {low high : Int} (x bg en : Int) (h : low ≤ high) : linearMap x low high bg en =
    if low = high then bg else bg + Int.tdiv ((max low (min x high) - low) * (en - bg)) (high - low) := by
  rw [linearMap, clamp_eq_max_min _ _ _ h, tdiv_eq]

theorem linearMap_of_le_low {x low high : Int} (bg en : Int) (h : low ≤ high) (hx : x ≤ low) :
    linearMap x low high bg en = bg := by
  have hclamp : max low (min x high) - low = 0 := by omega
  rw [linearMap_eq x bg en h, hclamp, Int.zero_mul, Int.zero_tdiv, Int.add_zero, ite_self]

theorem linearMap_of_high_le {x low high : Int} (bg en : Int) (h : low < high) (hx : high ≤ x) :
    linearMap x low high bg en = en := by
  have hclamp : max low (min x high) = high := by omega
  rw [linearMap_eq x bg en h.le, if_neg h.ne, hclamp, Int.mul_tdiv_cancel_left _ (by omega)]
  omega

theorem exec_linMap_of_empty_range {s : State} (hs : s.Ready) (h : s.opH < s.opL) :
    exec .linMap s = .next (s.reply { status := .range }) :=
  exec_eq_reply hs rfl (if_pos h)

theorem exec_linMap_of_range {s : State} (hs : s.Ready) (h : s.opL ≤ s.opH) :
    exec .linMap s =
      .next (s.reply { status := .ok, val := some (linearMap s.opX s.opL s.opH s.opBG s.opEN) }) :=
  exec_eq_reply hs rfl (if_neg h.not_gt)

/-- Settles O23: LINMAP's word has no field, and its answer is one of two by the order of the input range. -/
theorem linMapRescales : Obligations.LinMapRescales := by
  refine ⟨fun c => decodeCtrl_eq_ok_iff_encode, ?_⟩
  rintro s _ _ _ _ _ hs rfl rfl rfl rfl rfl
  refine ⟨exec_linMap_of_empty_range hs, fun h => ?_⟩
  rw [← linearMap_eq _ _ _ h]
  exact exec_linMap_of_range hs h

/-- Settles O24: the value is that of the linear map, which scales by a fraction from 0 to 1, being 0 at the low end and
1 at the high end. -/
theorem linMapStaysBetweenItsEnds : Obligations.LinMapStaysBetweenItsEnds := by
  rintro s _ _ _ _ _ hs rfl rfl rfl rfl rfl h
  have ⟨⟨_, _, ⟨hwM, _⟩, _⟩, _⟩ := hs
  have hw : 1 ≤ s.cfg.wM := by omega
  have hfits := linearMap_fitsSigned (x := s.opX) h (sext_fitsSigned hw s.op.bg) (sext_fitsSigned hw s.op.en)
  obtain ⟨hmin, hmax⟩ := linearMap_between (x := s.opX) s.opBG s.opEN h
  exact ⟨_, exec_linMap_of_range hs h, hmin, hmax, hfits, linearMap_of_le_low _ _ h, linearMap_of_high_le _ _⟩

/-! ### The target and the delta clamp (R152) -/

/-- The target with Lean's own operations: the clamp of a clamped input is that input. -/
theorem mapTarget_eq {k : MapConfig} (pres : Bool) (x : Int) (h : k.inMin < k.inMax) : mapTarget k pres x =
    if pres then
      k.outMax + Int.tdiv ((max k.inMin (min x k.inMax) - k.inMin) * (k.outMin - k.outMax)) (k.inMax - k.inMin)
    else k.rest := by
  rw [mapTarget, linearMap, if_neg h.ne, clamp_clamp _ _ _ h.le, clamp_eq_max_min _ _ _ h.le, tdiv_eq]

theorem deltaStep_eq {d : Int} (t o : Int) (hd : 0 ≤ d) : deltaStep d t o = o + max (-d) (min (t - o) d) := by
  rw [deltaStep, clamp_eq_max_min _ _ _ (by omega)]

theorem abs_deltaStep_sub_le {d : Int} (t o : Int) (hd : 0 ≤ d) : |deltaStep d t o - o| ≤ d := by
  rw [deltaStep_eq t o hd, abs_le]
  omega

theorem deltaStep_eq_target_iff {d : Int} (t o : Int) (hd : 0 ≤ d) : deltaStep d t o = t ↔ |t - o| ≤ d := by
  rw [deltaStep_eq t o hd, abs_le]
  omega

/-- The form of R153: the output goes toward the target by the limit or by the distance, whichever is less. -/
theorem deltaStep_eq_sign_mul {d : Int} (t o : Int) (hd : 0 ≤ d) :
    deltaStep d t o = o + (t - o).sign * min d |t - o| := by
  rw [deltaStep_eq t o hd]
  obtain hneg | hzero | hpos := lt_trichotomy (t - o) 0
  · rw [Int.sign_eq_neg_one_of_neg hneg, abs_of_neg hneg]
    omega
  · rw [hzero, Int.sign_zero]
    omega
  · rw [Int.sign_eq_one_of_pos hpos, abs_of_pos hpos]
    omega

/-- Two delta clamps toward one target are one with the sum of their limits. -/
theorem deltaStep_deltaStep {d e : Int} (t o : Int) (hd : 0 ≤ d) (he : 0 ≤ e) :
    deltaStep e t (deltaStep d t o) = deltaStep (d + e) t o := by
  rw [deltaStep_eq _ _ he, deltaStep_eq _ _ hd, deltaStep_eq _ _ (by omega)]
  omega

/-! ### One MAP.STEP -/

/-- Under the invariant, MAP.STEP on a channel of the configuration moves its output, which was in range. -/
theorem exec_mapStep_of_inv {s : State} {ch : BitVec 8} {k : MapConfig} (pres : Bool) (hs : s.Inv)
    (hl : s.live = true) (hk : s.cfg.map[ch.toNat]? = some k) :
    k.Legal s.cfg.wM ∧ ∃ o o2 : Int, s.out[ch.toNat]? = some o ∧ OutOk k o ∧
      o2 = deltaStep k.delta (mapTarget k pres s.opX) o ∧
      exec (.mapStep pres ch) s = .next ((s.setOut ch.toNat o2).reply { status := .ok, val := some o2 }) := by
  obtain ⟨hc, hlive, -⟩ := hs
  have ⟨_, _, _, _, _, _, hmap⟩ := hc
  obtain ⟨o, ho, hok⟩ := MappersOk.get (hlive hl).2 hk
  exact ⟨hmap k (List.mem_of_getElem? hk), o, _, ho, hok, rfl, execMapStep_channel ⟨hc, hl⟩ hk ho rfl⟩

theorem setOut_out_getElem?_self {s : State} {m : Nat} {o : Int} (h : s.out[m]? = some o) (v : Int) :
    (s.setOut m v).out[m]? = some v :=
  List.getElem?_set_self (List.getElem?_eq_some_iff.1 h).1

theorem encode_mapStep (pres : Bool) (ch : BitVec 8) : encode (.mapStep pres ch) =
    BitVec.ofNat 32 ((if pres then 0x00020020 else 0x00000020) + 256 * ch.toNat) := by
  refine (ctrlWord_eq_ofNat _ ch false pres).trans (congrArg (BitVec.ofNat 32) ?_)
  cases pres with
  | false => rfl
  | true =>
    show 0x20 + 2 ^ 8 * ch.toNat + 2 ^ 16 * 0 + 2 ^ 17 * 1 = 0x00020020 + 256 * ch.toNat
    omega

/-- Settles O28: MAP.STEP replies, and before that it may have written the output of its channel. -/
theorem mapStepFrame : Obligations.MapStepFrame := by
  intro s t pres ch h
  obtain ⟨-, -, ⟨-, rfl⟩ | ⟨k, o, o2, -, -, -, rfl⟩⟩ := execMapStep_next h
  · exact ⟨rfl, rfl, rfl, rfl, rfl, ⟨_, rfl⟩, fun _ _ => rfl⟩
  · exact ⟨rfl, rfl, rfl, rfl, rfl, ⟨_, rfl⟩, fun _ hne => List.getElem?_set_ne hne.symm⟩

/-- Settles O25: the word is the number of its fields, and the invariant gives the channel the output it moves. -/
theorem mapStepMovesTowardTheTarget : Obligations.MapStepMovesTowardTheTarget := by
  refine ⟨fun c pres ch => ?_, fun s pres ch hs hl => ⟨fun hch => ?_, fun k hk => ?_⟩⟩
  · rw [decodeCtrl_eq_ok_iff_encode, encode_mapStep]
  · exact execMapStep_badChannel ⟨hs.1, hl⟩ (List.getElem?_eq_none hch)
  · obtain ⟨⟨-, hin, -, -, -, hdelta⟩, o, o2, ho, -, ho2, hexec⟩ := exec_mapStep_of_inv pres hs hl hk
    exact ⟨o, _, o2, ho, mapTarget_eq pres s.opX hin, ho2.trans (deltaStep_eq _ o hdelta), hexec⟩

/-- Settles O26: the new output is the delta clamp of the old one, and both the old output and the target are in
range. -/
theorem mapStepIsRateLimited : Obligations.MapStepIsRateLimited := by
  rintro s pres ch k o t hs hl hk ho rfl
  obtain ⟨hlegal, o', o2, ho', hok, ho2, hexec⟩ := exec_mapStep_of_inv pres hs hl hk
  cases ho.symm.trans ho'
  have ⟨_, _, _, _, _, hdelta⟩ := hlegal
  have hrate := abs_deltaStep_sub_le (mapTarget k pres s.opX) o hdelta
  have hlands := (deltaStep_eq_target_iff (mapTarget k pres s.opX) o hdelta).2
  have hpath := deltaStep_between hdelta (t := mapTarget k pres s.opX) ⟨min_le_right o _, le_max_right o _⟩
    ⟨min_le_left o _, le_max_left o _⟩
  have hrange := deltaStep_between hdelta (mapTarget_outOk hlegal pres s.opX) hok
  rw [← ho2] at hrate hlands hpath hrange
  have hfrozen (hzero : k.delta = 0) : o2 = o := by
    rw [hzero, abs_nonpos_iff] at hrate
    omega
  exact ⟨_, o2, hexec, setOut_out_getElem?_self ho o2, hrate, hpath.1, hpath.2, hlands, hfrozen, hrange⟩

/-! ### Successive MAP.STEP requests -/

/-- What a run of MAP.STEP requests keeps: the invariant and the configuration, mapper channel `m` holding `o`. -/
structure State.MapperAt (cfg : Config) (m : Nat) (o : Int) (s : State) : Prop where
  inv : s.Inv
  live : s.live = true
  cfg_eq : s.cfg = cfg
  out : s.out[m]? = some o

section
variable {cfg : Config} {ch : BitVec 8} {k : MapConfig} {pres : Bool} {o t : Int} {s : State} {rest : List Input}

/-- One request moves the output by one delta clamp and leaves the host's other actions. -/
theorem State.MapperAt.step_request {op : Operands} (h : s.MapperAt cfg ch.toNat o)
    (hk : cfg.map[ch.toNat]? = some k) (ht : mapTarget k pres (sext cfg.wM op.x) = t)
    (hi : s.inputs = .request { ctrl := encode (.mapStep pres ch), op := op } :: rest) :
    ∃ u, step s = .next u ∧ u.inputs = rest ∧ u.MapperAt cfg ch.toNat (deltaStep k.delta t o) := by
  obtain ⟨hinv, hl, rfl, ho⟩ := h
  subst ht
  have hstep := (step_of_decode_ok hinv.1 hi (encodeThenDecode _)).trans
    (execMapStep_channel ⟨hinv.1, hl⟩ hk ho rfl)
  exact ⟨_, hstep, rfl, everyStepKeepsTheInvariant _ _ hinv hstep, hl, rfl, setOut_out_getElem?_self ho _⟩

/-- By induction on the requests: each adds one limit to how far the output has gone toward the target. -/
theorem State.MapperAt.stepN_requests {ops : List Operands} (h : s.MapperAt cfg ch.toNat o)
    (hk : cfg.map[ch.toNat]? = some k) (hd : 0 ≤ k.delta)
    (ht : ∀ op ∈ ops, mapTarget k pres (sext cfg.wM op.x) = t)
    (hi : s.inputs = ops.map (fun op => Input.request { ctrl := encode (.mapStep pres ch), op := op }) ++ rest) :
    ∃ u, stepN ops.length s = .next u ∧ u.MapperAt cfg ch.toNat (deltaStep (ops.length * k.delta) t o) := by
  induction ops generalizing s o with
  | nil =>
    have hstay : deltaStep (0 * k.delta) t o = o := by
      rw [Int.zero_mul, deltaStep_eq t o le_rfl]
      omega
    exact ⟨s, rfl, hstay.symm ▸ h⟩
  | cons op ops ih =>
    obtain ⟨htop, htops⟩ := List.forall_mem_cons.1 ht
    obtain ⟨s', hstep, hi', h'⟩ := h.step_request hk htop hi
    obtain ⟨u, hrun, hu⟩ := ih h' htops hi'
    have hsum : k.delta + ops.length * k.delta = (op :: ops).length * k.delta := by
      rw [List.length_cons]
      push_cast
      ring
    rw [deltaStep_deltaStep t o hd (by positivity), hsum] at hu
    exact ⟨u, (stepN_succ_of_next _ hstep).trans hrun, hu⟩

end

/-- Settles O27: `k` requests are one delta clamp with the limit `k * d`, which lands on the target exactly when the
distance is within that limit. -/
theorem mapperConverges : Obligations.MapperConverges := by
  intro s pres ch k o t ops rest hs hl hk ho hd ht hi
  obtain ⟨u, hrun, hu⟩ := State.MapperAt.stepN_requests ⟨hs, hl, rfl, ho⟩ hk hd.le ht hi
  have hlimit : 0 ≤ ops.length * k.delta := by positivity
  exact ⟨u, _, hrun, hu.out, deltaStep_eq_sign_mul t o hlimit, deltaStep_eq_target_iff t o hlimit⟩

end Sys2Proof.Machine
end

section
/-! PROOFS. The statements of 60_exceptions: the status codes and which instruction gives which status (R170), the order
of the causes (R172), what a failed request leaves (R171), and the idle block (R182). -/

namespace Sys2Proof.Machine

/-- Settles O29: the table of codes is the one of R170. -/
theorem statusCodes : Obligations.StatusCodes := ⟨rfl, rfl, rfl, rfl, rfl, rfl, rfl, rfl⟩

/-! ### The status of a request -/

/-- The status an instruction answers, once performed: that of its response, or by its channel. -/
def answerStatus (i : Instr) (cfg : Config) (op : Operands) : Status :=
  match i with
  | .swaAdd ch => if cfg.nswa ≤ ch.toNat then .badChannel else .ok
  | .mapStep _ ch => if cfg.nmap ≤ ch.toNat then .badChannel else .ok
  | i => (statelessResponse i cfg op).status

/-- The status of a request: its decode error, or what its instruction answers. -/
def requestStatus (cfg : Config) (r : Request) : Status :=
  match decodeCtrl r.ctrl with
  | .ok i => answerStatus i cfg r.op
  | .error st => st

/-- From `s` to `t` one response with the status `st` is appended; unless `st` is OK, the response has no result field
and nothing else is written. -/
def Answers (s t : State) (st : Status) : Prop :=
  ∃ q : Response, t.responses = s.responses ++ [q] ∧ q.status = st ∧
    (q.status ≠ .ok → q.NoResults ∧ t = s.reply q)

theorem answers_reply (s : State) {q : Response} (hq : q.Precise) : Answers s (s.reply q) q.status :=
  ⟨q, rfl, rfl, fun h => ⟨hq h, rfl⟩⟩

theorem answers_raise (s : State) (st : Status) : Answers s (s.reply { status := st }) st :=
  answers_reply s fun _ => ⟨rfl, rfl, rfl, rfl, rfl⟩

theorem exec_answers {i : Instr} {s t : State} (h : exec i s = .next t) :
    Answers s t (answerStatus i s.cfg s.op) := by
  cases i with
  | swaAdd ch =>
    obtain ⟨-, -, ⟨hk, rfl⟩ | ⟨k, c, old, hk, -, -, rfl⟩⟩ := execSwaAdd_next h
    · rw [answerStatus, Config.nswa, if_pos (List.getElem?_eq_none_iff.1 hk)]
      exact answers_raise s _
    · rw [answerStatus, Config.nswa, if_neg (List.getElem?_eq_some_iff.1 hk).1.not_ge]
      exact ⟨_, rfl, rfl, absurd rfl⟩
  | mapStep pres ch =>
    obtain ⟨-, -, ⟨hk, rfl⟩ | ⟨k, o, o2, hk, -, -, rfl⟩⟩ := execMapStep_next h
    · rw [answerStatus, Config.nmap, if_pos (List.getElem?_eq_none_iff.1 hk)]
      exact answers_raise s _
    · rw [answerStatus, Config.nmap, if_neg (List.getElem?_eq_some_iff.1 hk).1.not_ge]
      exact ⟨_, rfl, rfl, absurd rfl⟩
  | _ =>
    obtain ⟨-, -, rfl⟩ := exec_stateless_next rfl h
    exact answers_reply s (statelessResponse_status rfl s.cfg s.op).2

theorem runCtrl_answers {r : Request} {s t : State} (h : runCtrl r.ctrl s = .next t) (hop : s.op = r.op) :
    Answers s t (requestStatus s.cfg r) := by
  obtain ⟨i, hd, hi⟩ | ⟨st, hd, -, -, rfl⟩ := runCtrl_next h
  · rw [requestStatus, hd, ← hop]
    exact exec_answers hi
  · rw [requestStatus, hd]
    exact answers_raise s st

/-- A step with a request offered answers it from the state that accepted it. -/
theorem step_answers {s t : State} {r : Request} {rest : List Input} (hi : s.inputs = .request r :: rest)
    (h : step s = .next t) : Answers (s.accept r rest) t (requestStatus s.cfg r) := by
  obtain ⟨hc, -⟩ := step_next h
  rw [step_of_request hc hi] at h
  exact runCtrl_answers (s := s.accept r rest) h rfl

theorem answerStatus_mem (i : Instr) (cfg : Config) (op : Operands) : answerStatus i cfg op ∈ statusesOf i := by
  cases i with
  | swaAdd ch => rw [answerStatus]; split <;> simp [statusesOf]
  | mapStep pres ch => rw [answerStatus]; split <;> simp [statusesOf]
  | _ => exact (statelessResponse_status rfl cfg op).1

/-- Settles O30: the status answered is one of those that R170 lists for the instruction. -/
theorem statusesByInstruction : Obligations.StatusesByInstruction := by
  intro i s t h
  obtain ⟨q, hq, hstatus, -⟩ := exec_answers h
  exact ⟨q, hq, hstatus ▸ answerStatus_mem i s.cfg s.op⟩

/-- Settles O32: accepting the request puts its operand fields on the port and takes it; a response other than OK adds
itself alone. -/
theorem failedRequestsWriteNothing : Obligations.FailedRequestsWriteNothing := by
  intro s t r rest hi h
  obtain ⟨q, hq, -, hfailed⟩ := step_answers hi h
  exact ⟨q, hq, hfailed⟩

/-! ### The causes of R170, by the opcode of the control word -/

theorem findLast_eq_none_iff {p b : Bytes} (hp : p ≠ []) :
    findLast p b = none ↔ ∀ i < b.length + 1, ¬ OccursAt p b i := by
  constructor
  · intro h i hi
    have hspec := findLast_spec p b
    rw [h] at hspec
    exact hspec i (Nat.le_of_lt_succ hi)
  · exact fun h => findLast_eq_none fun i hi => h i (Nat.lt_succ_of_le (le_length_of_occursAt hp hi)) hi

theorem no_frame_header_iff (b : Bytes) :
    (b.length < 30 ∨ slice b (b.length - 30) (b.length - 26) ≠ dataHdr) ↔
      b.length < 30 ∨ ¬ OccursAt dataHdr b (b.length - 30) := by
  obtain hshort | hlong := Nat.lt_or_ge b.length 30
  · simp only [hshort, true_or]
  · rw [slice_header hlong]
    rfl

theorem causeHolds_illegalOp_iff {cfg : Config} {r : Request} :
    causeHolds cfg r .illegalOp = true ↔ ctrlOpc r.ctrl ∉ assignedOpcodes := by
  simp only [causeHolds, ctrlOpc, Bool.not_eq_true', List.contains_eq_mem, decide_eq_false_iff_not]

section
variable {cfg : Config} {r : Request} {o : Opcode} (ho : o.code = ctrlOpc r.ctrl)
include ho

theorem not_causeHolds_illegalOp : ¬ causeHolds cfg r .illegalOp = true := fun h =>
  causeHolds_illegalOp_iff.1 h (mem_assignedOpcodes_iff.2 ⟨o, ho⟩)

theorem causeHolds_reserved_iff : causeHolds cfg r .reserved = true ↔ ¬ o.ReservedClear r.ctrl := by
  rw [iff_not_comm, o.reservedClear_iff, ctrlCh, ctrlRev, ctrlPres]
  rw [ctrlOpc] at ho
  cases o <;> simp [causeHolds, ← ho, Opcode.code, and_assoc]

theorem causeHolds_badChannel_iff : causeHolds cfg r .badChannel = true ↔
    (o = .swaAdd ∧ cfg.nswa ≤ (ctrlCh r.ctrl).toNat) ∨ (o = .mapStep ∧ cfg.nmap ≤ (ctrlCh r.ctrl).toNat) := by
  rw [ctrlOpc] at ho
  cases o <;> simp [causeHolds, ← ho, Opcode.code, ctrlCh]

theorem causeHolds_length_iff : causeHolds cfg r .length = true ↔
    (o = .encCmd ∧ (65533 < r.op.b.length ∨ cfg.bufMax < 12 + r.op.b.length)) ∨
    ((o = .chksum ∨ o = .decResp ∨ o = .respAck ∨ o = .decData) ∧ cfg.bufMax < r.op.b.length) := by
  rw [ctrlOpc] at ho
  cases o <;> simp [causeHolds, ← ho, Opcode.code]

theorem causeHolds_range_iff : causeHolds cfg r .range = true ↔
    o = .linMap ∧ sext cfg.wM r.op.h < sext cfg.wM r.op.l := by
  rw [ctrlOpc] at ho
  cases o <;> simp [causeHolds, ← ho, Opcode.code]

theorem causeHolds_framing_iff : causeHolds cfg r .framing = true ↔
    o = .decResp ∧ findLast cmdHdr r.op.b = none := by
  rw [findLast_eq_none_iff (by decide)]
  rw [ctrlOpc] at ho
  cases o <;> simp [causeHolds, ← ho, Opcode.code, cmdHdr]

theorem causeHolds_anomaly_iff : causeHolds cfg r .anomaly = true ↔
    o = .decData ∧ (r.op.b.length < 30 ∨
      slice r.op.b (r.op.b.length - 30) (r.op.b.length - 26) ≠ dataHdr) := by
  rw [no_frame_header_iff]
  rw [ctrlOpc] at ho
  cases o <;> simp [causeHolds, ← ho, Opcode.code, dataHdr]

/-- Once the word decodes, the causes left in R172's order are asked in the order in which the instruction asks for
them. -/
theorem firstCause_of_opcode :
    firstCause cfg r [.badChannel, .length, .range, .framing, .anomaly] =
      answerStatus (o.instr r.ctrl) cfg r.op := by
  simp only [firstCause, causeHolds_badChannel_iff ho, causeHolds_length_iff ho, causeHolds_range_iff ho,
    causeHolds_framing_iff ho, causeHolds_anomaly_iff ho]
  cases o with
  | swaAdd => simp [Opcode.instr, answerStatus]
  | mapStep => simp [Opcode.instr, answerStatus]
  | decResp =>
    cases hheader : findLast cmdHdr r.op.b <;>
      simp [hheader, Opcode.instr, answerStatus, statelessResponse, apply_ite Response.status]
  | decData => simp [Opcode.instr, answerStatus, statelessResponse, apply_ite Response.status, ite_or]
  | _ => simp [Opcode.instr, answerStatus, statelessResponse, apply_ite Response.status]

end

/-- The three readings of a control word: its opcode is unassigned, or a bit that must be clear decides between
RESERVED and the causes of the instruction. -/
theorem requestStatus_eq_firstCause (cfg : Config) (r : Request) :
    requestStatus cfg r = firstCause cfg r priority := by
  rw [requestStatus, priority]
  obtain ⟨hmem, hd⟩ | ⟨o, ho, ⟨hclear, hd⟩ | ⟨hclear, hd⟩⟩ := decodeCtrl_cases r.ctrl
  · rw [hd, firstCause, if_pos (causeHolds_illegalOp_iff.2 hmem)]
  · have hreserved : ¬ causeHolds cfg r .reserved = true := fun h => (causeHolds_reserved_iff ho).1 h hclear
    rw [hd, firstCause, if_neg (not_causeHolds_illegalOp ho), firstCause, if_neg hreserved,
      firstCause_of_opcode ho]
  · rw [hd, firstCause, if_neg (not_causeHolds_illegalOp ho), firstCause,
      if_pos ((causeHolds_reserved_iff ho).2 hclear)]

/-- Settles O31: under the invariant the request is answered, and with the status that its first cause names. -/
theorem statusIsTheFirstCause : Obligations.StatusIsTheFirstCause := by
  intro s r rest hs hl hi
  obtain ⟨t, -, hstep, -⟩ := step_answers_request hs hl hi
  obtain ⟨q, hq, hstatus, -⟩ := step_answers hi hstep
  exact ⟨t, q, hstep, hq, hstatus.trans (requestStatus_eq_firstCause s.cfg r)⟩

/-! ### The idle block -/

theorem step_of_idle {s : State} (hc : s.cfg.Legal) (hi : s.inputs = []) : step s = .next s := by
  rw [step, runNext, if_pos hc, hi]

/-- Settles O47, by induction on the steps: each finds the same state. -/
theorem idleBlockHoldsItsState : Obligations.IdleBlockHoldsItsState := by
  intro s hc hi n
  induction n with
  | zero => rfl
  | succ n ih => exact (stepN_succ_of_next n (step_of_idle hc hi)).trans ih

end Sys2Proof.Machine
end

section
/-! PROOFS. The statements of 70_reset: what reset does and abandons (R190, R192), that a request before it is stuck
(R191), the boot sequence (R193), and that every request after it is answered (R196). -/

namespace Sys2Proof.Machine

/-! ### Requests after reset -/

/-- Settles O41: under the invariant a step takes the request, answers it and keeps S.LIVE. -/
theorem everyRequestIsAnsweredOnce : Obligations.EveryRequestIsAnsweredOnce := by
  intro s r rest hs hl hi
  obtain ⟨t, q, hstep, -, htl, hti, htq⟩ := step_answers_request hs hl hi
  exact ⟨t, q, hstep, htq, hti, htl⟩

/-! ### Reset -/

theorem step_of_reset {s : State} {rest : List Input} (hc : s.cfg.Legal) (hi : s.inputs = .reset :: rest) :
    step s = .next { s with inputs := rest }.applyReset := by
  rw [step, runNext, if_pos hc, hi]
  rfl

theorem step_of_resetDuring {s : State} {r : Request} {rest : List Input} (hc : s.cfg.Legal)
    (hi : s.inputs = .resetDuring r :: rest) : step s = .next { s with inputs := rest }.applyReset := by
  rw [step, runNext, if_pos hc, hi]
  rfl

/-- Settles O37: the fields that the statement writes out are those of the reset state. -/
theorem resetWritesEveryField : Obligations.ResetWritesEveryField :=
  fun _ _ hc hi => step_of_reset hc hi

/-- Settles O38: the step of a reset during a request does not look at the request. -/
theorem resetAbandonsTheRequest : Obligations.ResetAbandonsTheRequest :=
  fun _ _ _ hc hi => step_of_resetDuring hc hi

/-! ### Before the first reset -/

theorem exec_of_not_live {s : State} (i : Instr) (hc : s.cfg.Legal) (hl : s.live = false) :
    exec i s = .fault .stuckBeforeReset := by
  obtain ⟨body, hbody⟩ := exec_eq_perform i s
  rw [hbody, perform_of_not_live hc hl]

/-- A word that does not decode is stuck too: reporting its status is performed like an instruction. -/
theorem runCtrl_of_not_live {s : State} (c : Ctrl) (hc : s.cfg.Legal) (hl : s.live = false) :
    runCtrl c s = .fault .stuckBeforeReset := by
  unfold runCtrl
  split
  · exact exec_of_not_live _ hc hl
  · exact perform_of_not_live hc hl

/-- Settles O39: accepting a request leaves S.LIVE = 0, so whatever its word the request is stuck. -/
theorem requestsBeforeResetAreStuck : Obligations.RequestsBeforeResetAreStuck := fun s hc hl =>
  ⟨fun i => exec_of_not_live i hc hl, fun r rest hi =>
    (step_of_request hc hi).trans (runCtrl_of_not_live (s := s.accept r rest) r.ctrl hc hl)⟩

/-! ### Boot -/

theorem instantiate_of_legal {c : Config} (hc : c.Legal) : instantiate c = .next (State.powerUp c) := if_pos hc

theorem instantiate_of_illegal {c : Config} (hc : ¬ c.Legal) : instantiate c = .refused .illegalConfiguration :=
  if_neg hc

/-- Before the first reset no channel holds a value (R30), so a legal configuration is all the invariant asks for. -/
theorem powerUp_inv {c : Config} (hc : c.Legal) : (State.powerUp c).Inv :=
  ⟨hc, nofun, fun _ => ⟨rfl, rfl⟩⟩

theorem applyReset_powerUp (c : Config) : (State.powerUp c).applyReset = State.afterReset c := rfl

theorem afterReset_inv {c : Config} (hc : c.Legal) : (State.afterReset c).Inv :=
  applyReset_powerUp c ▸ applyReset_inv hc

/-- Settles O36: only the configuration decides about instantiation, and the state after reset is the power-up state
with reset applied, which meets the invariant. -/
theorem bootSequence : Obligations.BootSequence := by
  refine fun c => ⟨fun hc => ?_, instantiate_of_illegal⟩
  have hreset : step { State.powerUp c with inputs := [.reset] } = .next (State.afterReset c) :=
    step_of_reset hc rfl
  exact ⟨instantiate_of_legal hc, rfl, powerUp_inv hc, hreset, rfl, afterReset_inv hc⟩

end Sys2Proof.Machine
end
